-- ==== Sys2Proof/Word.lean ====
section
/-! DEFINITION. The bit vectors of the ExtendedFloatCodec's ports and fields, by the widths of `10_state.md` R29, R30
and `00_scope.md` R8. -/
namespace Sys2Proof

/-- One byte of the extended sequence, and the width of the command word's two fields (R46, R60). -/
abbrev Byte := BitVec 8

/-- The 16-bit command word `cmd` (R60). -/
abbrev CmdWord := BitVec 16

/-- The 16-bit sign-exponent word `SEW` (R17). -/
abbrev SignExp := BitVec 16

/-- One 32-bit mantissa half, `hiMant` or `loMant` (R70). -/
abbrev Word32 := BitVec 32

/-- A 64-bit binary64 pattern (R68). -/
abbrev Bin64 := BitVec 64

/-- The 80-bit extended sequence as one field, byte 0 in bits 79 to 72 (R46). -/
abbrev Ext80 := BitVec 80

/-- The 2-bit outcome code of a response (R30, R31). -/
abbrev Status := BitVec 2

end Sys2Proof
end

