-- ==== Sys2Proof/Machine/Params.lean ====
section
/-! DEFINITION. The fixed numbers of the block, by the names of `00_scope.md` R8. The model takes none of them as an
argument. -/
namespace Sys2Proof.Machine

/-- `EXT_BYTES`, the only length DEC accepts (R8, R106). -/
abbrev extBytes : Byte := 10#8

/-- `SIGN_FLAG`, the sign flag in `SEW` (R8, R81). -/
abbrev signFlag : SignExp := 0x8000#16

/-- `EXP_INF`, the exponent field of the infinity encoding (R8, R87, R110). -/
abbrev expInf : SignExp := 0x7FFF#16

/-- `BIAS_ENC`, added to the frexp exponent (R8, R88). -/
abbrev biasEnc : Int := 16382

/-- `BIAS_DEC`, subtracted on decode (R8, R111). -/
abbrev biasDec : Int := 16383

/-- `OVF_LIMIT`, the largest frexp exponent encoded as finite (R8, R86). -/
abbrev ovfLimit : Int := 16384

/-- Status code OK (`10_state.md` R31). -/
abbrev statusOk : Status := 0#2

/-- Status code INVALID_LENGTH (`10_state.md` R31, `60_exceptions.md` R130). -/
abbrev statusInvalidLength : Status := 1#2

end Sys2Proof.Machine
end

