-- ==== Sys2Proof/Machine/Operands.lean ====
section
/-! DEFINITION. The two number formats and the exact values they denote: binary64 (`30_encoding.md` R68), the 80-bit
extended format (R70, `20_memory.md` R46, R47), and exact arithmetic on non-negative numbers `sig * 2^exp` (R10, R11). Every
real that a rule of ENC or DEC forms has that shape (log 9). -/
namespace Sys2Proof.Machine

/-! ### Exact non-negative numbers -/

/-- The exact number `sig * 2^exp` (R11: no rounding). One number has many such pairs. -/
structure Exact where
  sig : Nat
  exp : Int
deriving DecidableEq, Repr

/-- `a * 2^k`, exact. -/
def Exact.scale (a : Exact) (k : Int) : Exact := ⟨a.sig, a.exp + k⟩

/-- `sig * 2^(exp - q)` for a weight `q` not above `exp`: the number counted in units of `2^q`. -/
def Exact.units (a : Exact) (q : Int) : Nat := a.sig * 2 ^ (a.exp - q).toNat

/-- `floor(a)` (R11), a natural number since `a >= 0`. -/
def Exact.floor (a : Exact) : Nat :=
  if 0 ≤ a.exp then a.units 0 else a.sig / 2 ^ (-a.exp).toNat

/-- `a - floor(a)`, exact. -/
def Exact.frac (a : Exact) : Exact :=
  if 0 ≤ a.exp then ⟨0, 0⟩ else ⟨a.sig % 2 ^ (-a.exp).toNat, a.exp⟩

/-- `a + b`, exact: both counted in units of the smaller weight. -/
def Exact.add (a b : Exact) : Exact :=
  let q := min a.exp b.exp
  ⟨a.units q + b.units q, q⟩

/-- `a <= b`, exact. -/
def Exact.le (a b : Exact) : Bool :=
  let q := min a.exp b.exp
  decide (a.units q ≤ b.units q)

/-- `a < b`, exact. -/
def Exact.lt (a b : Exact) : Bool := !(b.le a)

/-! ### Binary64 -/

/-- Sign bit `u[63]` (R68). -/
def binSign (u : Bin64) : BitVec 1 := u.extractLsb' 63 1

/-- Biased exponent `E64 = u[62:52]` (R68). -/
def binExp (u : Bin64) : BitVec 11 := u.extractLsb' 52 11

/-- Fraction `f = u[51:0]` (R68). -/
def binFrac (u : Bin64) : BitVec 52 := u.extractLsb' 0 52

/-- A pattern from its three fields (R68). -/
def binOf (s : BitVec 1) (e : BitVec 11) (f : BitVec 52) : Bin64 := s ++ e ++ f

/-- The value a binary64 pattern denotes (R12): a number with a sign, an infinity with a sign, or NaN. -/
inductive Val where
  | fin (neg : Bool) (mag : Exact)
  | inf (neg : Bool)
  | nan
deriving DecidableEq, Repr

/-- `val(u)` by the table of R68: `f * 2^-1074` for a zero or a subnormal, `(2^52 + f) * 2^(E64 - 1075)` for a normal. -/
def val (u : Bin64) : Val :=
  let neg := binSign u == 1#1
  let e := (binExp u).toNat
  let f := (binFrac u).toNat
  if e = 0x7FF then
    if f = 0 then .inf neg else .nan
  else if e = 0 then .fin neg ⟨f, -1074⟩
  else .fin neg ⟨2 ^ 52 + f, (e : Int) - 1075⟩

/-- The magnitude of a number. No rule reads it of an infinity or a NaN, for which it stands at 0 (log 14). -/
def Val.mag : Val → Exact
  | .fin _ a => a
  | .inf _ => ⟨0, 0⟩
  | .nan => ⟨0, 0⟩

/-- The pattern of +0.0. -/
def plusZero : Bin64 := binOf 0#1 0#11 0#52

/-- The pattern of +inf, 0x7FF0000000000000 (R68, R110). -/
def plusInf : Bin64 := binOf 0#1 0x7FF#11 0#52

/-- The pattern of the number `k * 2^q`, for `k <= 2^53` and a weight `q >= -1074` that is -1074 where `k < 2^52`: the
inverse of `val` on the numbers RNE64 yields (R15: "exactly representable in binary64"). -/
def binPack (k : Nat) (q : Int) : Bin64 :=
  if k < 2 ^ 52 then binOf 0#1 0#11 (BitVec.ofNat 52 k)
  else if k < 2 ^ 53 then binOf 0#1 (BitVec.ofNat 11 (q + 1075).toNat) (BitVec.ofNat 52 (k - 2 ^ 52))
  else binOf 0#1 (BitVec.ofNat 11 (q + 1076).toNat) 0#52

/-! ### The extended format -/

/-- Byte `k` of the sequence: bits `[79-8k : 72-8k]`, for k = 0 to 9 (R46). -/
def extByte (v : Ext80) (k : Nat) : Byte := v.extractLsb' (72 - 8 * k) 8

/-- Sign `v[79]` (R70, R107). -/
def extSign (v : Ext80) : BitVec 1 := v.extractLsb' 79 1

/-- `EXP15 = v[78:64]` (R70, R107). -/
def extExp (v : Ext80) : BitVec 15 := v.extractLsb' 64 15

/-- `hiMant = v[63:32]` (R70, R107). -/
def extHi (v : Ext80) : Word32 := v.extractLsb' 32 32

/-- `loMant = v[31:0]` (R70, R107). -/
def extLo (v : Ext80) : Word32 := v.extractLsb' 0 32

/-- `mant64 = v[63:0]` (R70). -/
def extMant (v : Ext80) : Bin64 := v.extractLsb' 0 64

/-- The packer (R96, R47): `{SEW, hiMant, loMant}`, that is the ten bytes most significant first. -/
def extPack (sew : SignExp) (hi lo : Word32) : Ext80 := sew ++ hi ++ lo

end Sys2Proof.Machine
end

