-- ==== Sys2Proof/Machine/Flags.lean ====
section
/-! DEFINITION. The tests the steps make. The block keeps no flag or condition code between commands (`10_state.md` R27) and
no IEEE-754 exception flag (`60_exceptions.md` R134), so there is no flag to compute: these are the predicates of
`00_scope.md` R13 and the comparison of R86, each read inside one command. -/
namespace Sys2Proof.Machine

/-- `isNaN(u)` (R13). -/
def isNaN (u : Bin64) : Bool := binExp u == 0x7FF#11 && binFrac u != 0#52

/-- `isInf(u)` (R13). -/
def isInf (u : Bin64) : Bool := binExp u == 0x7FF#11 && binFrac u == 0#52

/-- `isZero(u)`: `u[62:0] = 0`, true of +0.0 and -0.0 (R13). -/
def isZero (u : Bin64) : Bool := u.extractLsb' 0 63 == 0#63

/-- `isFinite(u)` (R13). -/
def isFinite (u : Bin64) : Bool := !isNaN u && !isInf u

/-- `lt0(u)`, the source's "value < 0" (R13): false for NaN and for -0.0. -/
def lt0 (u : Bin64) : Bool := binSign u == 1#1 && !isNaN u && !isZero u

/-- `eq0(u)`, the source's "value == 0" (R13). -/
def eq0 (u : Bin64) : Bool := isZero u

/-- `m < 1` by IEEE-754 comparison (R86): false for +inf and for NaN. -/
def Val.lt1 : Val → Bool
  | .fin neg a => neg || a.lt ⟨1, 0⟩
  | .inf neg => neg
  | .nan => false

/-- The detector of R86, `e > 16384 or not (m < 1)`. -/
def detects (m : Val) (e : Int) : Bool := !m.lt1 || decide (ovfLimit < e)

end Sys2Proof.Machine
end

