-- ==== Sys2Proof/Config.lean ====
section
/-! DEFINITION. The free values: what the spec leaves unspecified. Each is a constant with no body, applied to the number of
the draw, so that nothing can evaluate it and a claim holds whatever it is. The block has no other parameter: "The block has
no open implementation parameter" (`00_scope.md` R8); R8's fixed numbers are in `Machine/Params.lean`. -/
namespace Sys2Proof

/-- `rsp.status` before the first response (`70_reset_and_hazards.md` R150, U2; log 5). -/
opaque Config.freeStatus : Nat → Status

/-- `rsp.re` where it is unspecified (`10_state.md` R32; U2, U3, U4; log 4). -/
opaque Config.freeRe : Nat → Ext80

/-- `rsp.rx` where it is unspecified (`10_state.md` R32; U2, U3, U4; log 4). -/
opaque Config.freeRx : Nat → Bin64

/-- `e_any`, the exponent `frexp` gives for an infinity or a NaN: "an integer the block does not fix" (`00_scope.md` R14;
U5; log 7). -/
opaque Config.freeFrexpExp : Nat → Int

end Sys2Proof
end

