-- ==== Sys2Proof/Syntax.lean ====
section
/-! DEFINITION. The commands of the block: one constructor per row of `opcode_table.json` (`30_encoding.md` R62). The
operands `x` and `e` are fields of the request, not of the command (R66). -/
namespace Sys2Proof

/-- The two commands (R2, R62, R141: "Its command set is ENC and DEC"). -/
inductive Instr where
  /-- ENC, `encode(double) -> bytes[10]` (R80). Its command word has no field that varies (R63). -/
  | enc
  /-- DEC, `decode(bytes[10]) -> double` (R105), with the 8-bit count `LEN` of its command word (R61). -/
  | dec (len : Byte)
deriving DecidableEq, Repr

end Sys2Proof
end

