-- ==== Sys2Proof/WellFormed.lean ====
section
/-! DEFINITION. What is well formed: every command term, and the command words that are not reserved. -/
namespace Sys2Proof

/-- Every command term is well formed. ENC has no field. `LEN` of DEC may be any count from 0 to 255 (`30_encoding.md`
R61; `41_decode.md` R105), and `Byte` holds exactly those. A LEN other than 10 is no ill-formed command: it is a DEC whose
response is INVALID_LENGTH (R106). -/
def Instr.wf : Instr → Bool
  | .enc => true
  | .dec _ => true

/-- The command words that are not reserved (`30_encoding.md` R64): a word is reserved when `OPC` is neither 0x01 nor 0x02,
or when `OPC = 0x01` and `LEN != 0`. Written as R64 states it, apart from the decoder. -/
def cmdAdmitted (cmd : CmdWord) : Bool :=
  let opc := cmd.extractLsb' 0 8
  let len := cmd.extractLsb' 8 8
  !((opc != 0x01#8 && opc != 0x02#8) || (opc == 0x01#8 && len != 0#8))

end Sys2Proof
end

