-- ==== Sys2Proof/Decode.lean ====
section
/-! DEFINITION. From a command word to a command or a rejection by name, and back (`30_encoding.md` section 1,
`opcode_table.json`). -/
namespace Sys2Proof

/-- Why a command word has no meaning: the two reasons of `30_encoding.md` R64. -/
inductive CmdReject where
  /-- `OPC` is neither 0x01 nor 0x02. -/
  | reservedOpcode (opc : Byte)
  /-- `OPC = 0x01` (ENC) and `LEN != 0`. -/
  | encLengthNotZero (len : Byte)
deriving DecidableEq, Repr

/-- What decoding a command word answers. -/
inductive Decoded where
  | instr (i : Instr)
  | rejected (why : CmdReject)
deriving DecidableEq, Repr

/-- `OPC = cmd[7:0]` (R60). -/
def cmdOpc (cmd : CmdWord) : Byte := cmd.extractLsb' 0 8

/-- `LEN = cmd[15:8]` (R60). -/
def cmdLen (cmd : CmdWord) : Byte := cmd.extractLsb' 8 8

/-- `decode_cmd` of R65, total on all 65536 words; RESERVED says which reason of R64 holds. -/
def decodeCmd (cmd : CmdWord) : Decoded :=
  if cmdOpc cmd = 0x01#8 then
    if cmdLen cmd = 0x00#8 then .instr .enc else .rejected (.encLengthNotZero (cmdLen cmd))
  else if cmdOpc cmd = 0x02#8 then .instr (.dec (cmdLen cmd))
  else .rejected (.reservedOpcode (cmdOpc cmd))

/-- The command word `{LEN, OPC}` of a command: 0x0001 for ENC (R63), `(len << 8) | 0x02` for DEC (R62, R74). -/
def encode : Instr → CmdWord
  | .enc => 0x0001#16
  | .dec len => len ++ 0x02#8

/-- One row of `opcode_table.json`: a word is the row's when `cmd &&& mask = pat`. -/
structure OpcodeRow where
  mnemonic : String
  pat : CmdWord
  mask : CmdWord
deriving DecidableEq, Repr

/-- The rows of `opcode_table.json`, as the table has them. -/
def opcodeTable : List OpcodeRow :=
  [⟨"ENC", 0x0001#16, 0xFFFF#16⟩, ⟨"DEC", 0x0002#16, 0x00FF#16⟩]

/-- Whether a word is an instance of a row. -/
def OpcodeRow.covers (row : OpcodeRow) (cmd : CmdWord) : Bool := cmd &&& row.mask == row.pat

/-- The command the decoder reads from a row's word of `nbits` bits, bit 0 the least significant bit of `cmd`; the bits above
`nbits` are 0. A word that does not fit the one command length of R60, 16 bits, is no command. -/
def decodeTableWord (nbits w : Nat) : Option Instr :=
  let bits := w % 2 ^ nbits
  if bits < 2 ^ 16 then
    match decodeCmd (BitVec.ofNat 16 bits) with
    | .instr i => some i
    | .rejected _ => none
  else none

end Sys2Proof
end

