-- ==== Sys2Proof/Machine/State.lean ====
section
/-! DEFINITION. The state of the machine as plain data. The block holds no architectural state (`10_state.md` R25 to R38), so
State is the transaction interface of R28 to R32, the host's requests still to come, and the list of responses of R157
(INVENTORY.md, '## State'; logs 1 to 6, 13). -/
namespace Sys2Proof.Machine

/-- The request bundle (`10_state.md` R29). -/
structure Request where
  /-- Command word (R60). -/
  cmd : CmdWord
  /-- Binary64 operand of ENC. -/
  x : Bin64
  /-- Extended byte sequence for DEC. -/
  e : Ext80
deriving DecidableEq, Repr

/-- The response bundle as it stands on the port, unspecified fields included (`10_state.md` R30). -/
structure Response where
  /-- Outcome code (R31). -/
  status : Status
  /-- Extended byte sequence produced by ENC. -/
  re : Ext80
  /-- Binary64 result of DEC. -/
  rx : Bin64
deriving DecidableEq, Repr

/-- The defined content of a response: `Response` of `10_state.md` R39, named apart from the port bundle. -/
inductive Answer where
  /-- ENC's response: status OK and the sequence; `rx` unspecified. -/
  | encOk (re : Ext80)
  /-- DEC's response with LEN = 10: status OK and the value; `re` unspecified. -/
  | decOk (rx : Bin64)
  /-- DEC's response with LEN other than 10: status INVALID_LENGTH; `re` and `rx` unspecified. -/
  | invalidLength
deriving DecidableEq, Repr

/-- The state between two transactions. -/
structure State where
  /-- The request port: the request being answered, or the last one answered (R29). -/
  req : Request
  /-- The response port: the last response, all of it (R30). -/
  rsp : Response
  /-- The requests the host will present, first the next (R26, R157). -/
  pending : List Request
  /-- The responses given, in request order, defined content only (R157, R32). -/
  results : List Answer
  /-- The number of the next draw of unspecified values (the model's own field; R32). -/
  draws : Nat
deriving DecidableEq, Repr

/-- No step faults: the block has no fault and no trap (`60_exceptions.md` R131, R137), and its one error is a response
(R130). Safe: nothing is raised, and there is no run the spec goes on with that the model stops on as a fault. -/
inductive Fault
deriving DecidableEq, Repr

/-- Why the model has no transition. -/
inductive Refusal where
  /-- Raised by an arm of `exec` whose command has no meaning yet; no arm does. Safe: claims nothing. -/
  | notModelled (mnemonic : String)
  /-- Raised by `step` on a reserved command word, with R64's reason: "A model gives it no transition (refuse)". Safe: no
  claim can be made about such a request. -/
  | reservedCommand (why : CmdReject)
  /-- Raised by `step` when the host has presented no request: "The codec has no step of its own between requests" (R7).
  Safe: nothing happens there. -/
  | noRequest
deriving DecidableEq, Repr

/-- The machine right after reset (`70_reset_and_hazards.md` R150): reset sets nothing; the response fields are unspecified
(draw 0 of the free values, log 5); no request has been presented (log 6) and none answered. -/
def State.reset : State where
  req := { cmd := 0x0000#16, x := 0#64, e := 0#80 }
  rsp := { status := Config.freeStatus 0, re := Config.freeRe 0, rx := Config.freeRx 0 }
  pending := []
  results := []
  draws := 1

end Sys2Proof.Machine
end

