-- ==== Sys2Proof/Machine/Ops.lean ====
section
/-! DEFINITION. The shared operations: binary64 arithmetic (`00_scope.md` R13 to R15), and what a transaction does to the
request and response ports (`10_state.md` R28 to R32). -/
namespace Sys2Proof.Machine

/-! ### Binary64 arithmetic -/

/-- `neg(x)`: flips bit 63 of the pattern (R13). -/
def binNeg (u : Bin64) : Bin64 := u ^^^ 0x8000000000000000#64

/-- `frexp` of R14 on a finite nonzero value: `m = sig / 2^(p+1)` in [0.5, 1) and `e = exp + p + 1`, where `p` is the index
of the top 1 bit of `sig`. For an infinity or a NaN, `(value, e_any)`. Zero never reaches it (R82). -/
def frexp (eAny : Int) : Val → Val × Int
  | .fin neg a =>
    let width : Int := Nat.log2 a.sig + 1
    (.fin neg ⟨a.sig, -width⟩, a.exp + width)
  | .inf neg => (.inf neg, eAny)
  | .nan => (.nan, eAny)

/-- RNE64's test whether the kept part `k` of `n = r / 2^q` goes up: `n - k > 1/2`, or `n - k = 1/2` and `k` is odd (R15). -/
def roundsUp (n : Exact) (k : Nat) : Bool :=
  let half : Exact := ⟨1, -1⟩
  half.lt n.frac || (half.le n.frac && k % 2 == 1)

/-- RNE64's kept integer: `floor(n)`, or one more where the rest goes up (R15). -/
def roundNearest (n : Exact) : Nat := if roundsUp n n.floor then n.floor + 1 else n.floor

/-- RNE64's weight of the last kept bit, `max(p - 52, -1074)` with `p = floor(log2(r))` (R15). -/
def lastWeight (r : Exact) : Int := max ((Nat.log2 r.sig : Int) + r.exp - 52) (-1074)

/-- RNE64's last two lines: `k * 2^q`, or +inf where that is at least `2^1024` (R15). -/
def packOrOverflow (k : Nat) (q : Int) : Bin64 :=
  if Exact.le ⟨1, 1024⟩ ⟨k, q⟩ then plusInf else binPack k q

/-- `RNE64(r)` by the steps of R15: the binary64 value nearest to `r`, ties to even, overflow to +inf. -/
def rne64 (r : Exact) : Bin64 :=
  if r.sig = 0 then plusZero
  else packOrOverflow (roundNearest (r.scale (-lastWeight r))) (lastWeight r)

/-- `ldexp(a, k)` of a finite binary64 value `a >= 0`: `RNE64(a * 2^k)` (R15). -/
def ldexp (a : Bin64) (k : Int) : Bin64 := rne64 ((val a).mag.scale k)

/-- Binary64 addition of two values that are >= 0: `RNE64(a + b)` when both are finite, +inf when either is +inf (R15). -/
def binAdd (a b : Bin64) : Bin64 :=
  if isInf a || isInf b then plusInf else rne64 ((val a).mag.add (val b).mag)

/-- `u2f(w)`: the binary64 value equal to `w` as an unsigned magnitude (`41_decode.md` R108); exact, since `w < 2^53`. -/
def u2f (w : Word32) : Bin64 := rne64 ⟨w.toNat, 0⟩

/-! ### The ports -/

/-- The response port for a response: its defined fields, and draw `n` of the free values in the fields it leaves
unspecified (`10_state.md` R30 to R32; log 4). -/
def Answer.drive (n : Nat) : Answer → Response
  | .encOk re => { status := statusOk, re := re, rx := Config.freeRx n }
  | .decOk rx => { status := statusOk, re := Config.freeRe n, rx := rx }
  | .invalidLength => { status := statusInvalidLength, re := Config.freeRe n, rx := Config.freeRx n }

/-- The host's next request comes to the request port (R26, R29). -/
def State.present (s : State) (r : Request) (rest : List Request) : State :=
  { s with req := r, pending := rest }

/-- The transaction ends: the response appears, complete, on the response port (R28, R52) and is the next of the list of
responses (R157). The request port and the requests to come are as they were. -/
def State.respond (s : State) (a : Answer) : State :=
  { s with rsp := a.drive s.draws, results := s.results ++ [a], draws := s.draws + 1 }

/-- `raise InvalidLength` (`00_scope.md` R16, `60_exceptions.md` R130): the command ends with status INVALID_LENGTH and no
data. It saves no state and transfers control nowhere (R137); there is no return from it (R138). -/
def State.raiseInvalidLength (s : State) : State := s.respond .invalidLength

end Sys2Proof.Machine
end

