-- ==== Sys2Proof/Machine/Decoder.lean ====
section
/-! DEFINITION. DEC, the extended-float decoder (`41_decode.md` R105), stage by stage. -/
namespace Sys2Proof.Machine

/-- Step 5 (R111, R112): unbias, scale the two mantissa words by powers of two, each rounded, and add, rounded. -/
def reconstruct (exp15 : BitVec 15) (hi lo : Word32) : Bin64 :=
  let e : Int := exp15.toNat - biasDec
  binAdd (ldexp (u2f hi) (e - 31)) (ldexp (u2f lo) (e - 63))

/-- Steps 3 to 5: the magnitude before the sign, by class in the order of the steps (R109, R110, R112; R136). -/
def decMagnitude (exp15 : BitVec 15) (hi lo : Word32) : Bin64 :=
  if exp15 = 0#15 ∧ hi = 0#32 ∧ lo = 0#32 then plusZero
  else if exp15 = 0x7FFF#15 then plusInf
  else reconstruct exp15 hi lo

/-- `DEC(10, v)` of R105 after the length guard: field extractor (R107), magnitude, sign application (R113). -/
def decBits (v : Ext80) : Bin64 :=
  let f := decMagnitude (extExp v) (extHi v) (extLo v)
  if extSign v = 1#1 then binNeg f else f

/-- DEC (R105): the length guard first (R106), and then `rsp.rx` is the value of `req.e`, status OK, `rsp.re` unspecified.
`req.x` is not read. -/
def execDec (len : Byte) (s : State) : Host.Outcome State Fault Refusal :=
  if len = extBytes then .next (s.respond (.decOk (decBits s.req.e)))
  else .next s.raiseInvalidLength

end Sys2Proof.Machine
end

