-- ==== Sys2Proof/Machine/Encoder.lean ====
section
/-! DEFINITION. ENC, the extended-float encoder (`40_encode.md` R80), stage by stage. -/
namespace Sys2Proof.Machine

/-- Step 1, sign extractor (R81): the sign flag and the pattern of the magnitude `a`. -/
def signExtract (u : Bin64) : SignExp × Bin64 :=
  if lt0 u then (signFlag, binNeg u) else (0x0000#16, u)

/-- Step 4 taken, the infinity encoding (R87). -/
def infEncoding (sign : SignExp) : Ext80 := extPack (sign ||| expInf) 0#32 0#32

/-- Step 5, biased-exponent scaler: bias (R88), denormal rescale (R89), sign merge (R90). Answers `SEW` and the mantissa. -/
def scaleExponent (sign : SignExp) (m : Exact) (e : Int) : SignExp × Exact :=
  let b := e + biasEnc
  if b < 0 then (sign, m.scale b) else (sign ||| BitVec.ofNat 16 b.toNat, m)

/-- Step 6, mantissa splitter: `hiMant = floor(m * 2^32)` (R92) and `loMant = floor((m * 2^32 - hiMant) * 2^32)` (R93),
each converted to 32 bits as an unsigned magnitude (R94). -/
def splitMantissa (m : Exact) : Word32 × Word32 :=
  let fm := m.scale 32
  (BitVec.ofNat 32 fm.floor, BitVec.ofNat 32 (fm.frac.scale 32).floor)

/-- `ENC(u)` of R80. `eAny` is the exponent `frexp` gives an infinity or a NaN, which the block does not fix (R14). -/
def encBits (eAny : Int) (u : Bin64) : Ext80 :=
  let sa := signExtract u
  if eq0 u then extPack 0x0000#16 0#32 0#32
  else
    let me := frexp eAny (val sa.2)
    if detects me.1 me.2 then infEncoding sa.1
    else
      let sm := scaleExponent sa.1 me.1.mag me.2
      let hl := splitMantissa sm.2
      extPack sm.1 hl.1 hl.2

/-- ENC (R80): `rsp.re` is the encoding of `req.x`, status OK, `rsp.rx` unspecified. `req.e` is not read, no flag is written
and it never fails (R98). -/
def execEnc (s : State) : Host.Outcome State Fault Refusal :=
  .next (s.respond (.encOk (encBits (Config.freeFrexpExp s.draws) s.req.x)))

end Sys2Proof.Machine
end

