-- ==== Sys2Proof/Machine/Step.lean ====
section
/-! DEFINITION. One step: one transaction (`10_state.md` R28). -/
namespace Sys2Proof.Machine

/-- The next request the host presents comes to the port, its command word is decoded, and the command is executed; a
reserved command word is refused (`30_encoding.md` R64, first in the order of `60_exceptions.md` R136), and with no request
pending there is no step (R7). -/
def step (s : State) : Host.Outcome State Fault Refusal :=
  match s.pending with
  | [] => .refused .noRequest
  | r :: rest =>
    match decodeCmd r.cmd with
    | .instr i => exec i (s.present r rest)
    | .rejected why => .refused (.reservedCommand why)

/-- The command word `w` (bits above `nbits` zero) stored where the next step takes its command from: the command word of
the next request. That request keeps its operands; where the host has none pending, one is made with the operands that stand
on the request port (log 3). -/
def State.withFetchWord (s : State) (nbits w : Nat) : State :=
  let cmd : CmdWord := BitVec.ofNat 16 (w % 2 ^ nbits)
  match s.pending with
  | [] => { s with pending := [{ s.req with cmd := cmd }] }
  | r :: rest => { s with pending := { r with cmd := cmd } :: rest }

end Sys2Proof.Machine
end

