-- ==== Sys2Proof/Safety.lean ====
section
/-! DEFINITION. The terms the claims use: the exact value of a number, the closed forms of `40_encode.md` R97 and
`41_decode.md` R124 and the meaning of the block by `10_state.md` R39 (none of which the machine calls), and what a good
state is. -/
namespace Sys2Proof.Machine

/-- The rational number an exact pair denotes, `sig * 2^exp` (`00_scope.md` R11). -/
def Exact.value (a : Exact) : ℚ := a.sig * (2 : ℚ) ^ a.exp

/-- The magnitude of a finite binary64 pattern as a rational number (`30_encoding.md` R68). -/
def binMag (u : Bin64) : ℚ := (val u).mag.value

/-- `r = mant64 * 2^(EXP15 - 16446)`, the magnitude of an extended encoding that is no infinity (`30_encoding.md` R72). -/
def extMagnitude (v : Ext80) : Exact := ⟨(extMant v).toNat, ((extExp v).toNat : Int) - 16446⟩

/-- `2^1024 - 2^970`, the least number that RNE64 takes to +inf (`41_decode.md` R115, `93_implementation_defined.md` G7). -/
def overflowThreshold : ℚ := (2 : ℚ) ^ (1024 : ℤ) - (2 : ℚ) ^ (970 : ℤ)

/-- The closed form of ENC, the table of R97. -/
def encTable (u : Bin64) : Ext80 :=
  let s : SignExp := (binSign u).setWidth 16 <<< 15
  let e64 := (binExp u).toNat
  let f := (binFrac u).toNat
  let mant : Bin64 := (binFrac u).setWidth 64
  if e64 = 0x7FF then
    if f = 0 then (s ||| 0x7FFF#16) ++ 0#64 else 0x7FFF#16 ++ 0#64
  else if e64 = 0 then
    if f = 0 then 0#80
    else (s ||| BitVec.ofNat 16 (Nat.log2 f + 15309)) ++ (mant <<< (63 - Nat.log2 f))
  else (s ||| BitVec.ofNat 16 (e64 + 15360)) ++ (0x8000000000000000#64 ||| (mant <<< 11))

/-- The closed form of DEC with LEN = 10, the table of R124. -/
def decTable (v : Ext80) : Bin64 :=
  let e := (extExp v).toNat
  let mag :=
    if e = 0x7FFF then plusInf
    else if 0x3C0C ≤ e then rne64 (extMagnitude v)
    else if 0x3BCC ≤ e then
      binAdd (rne64 ⟨(extHi v).toNat, (e : Int) - 16383 - 31⟩) (rne64 ⟨(extLo v).toNat, (e : Int) - 16383 - 63⟩)
    else plusZero
  if extSign v = 1#1 then binNeg mag else mag

/-- The meaning of the block as a partial function from requests to responses, by R39, with the closed forms for ENC and
DEC; `none` is R39's "undefined (refused)". -/
def blockMeaning (r : Request) : Option Answer :=
  if r.cmd = 0x0001#16 then some (.encOk (encTable r.x))
  else if r.cmd.extractLsb' 0 8 = 0x02#8 then
    if r.cmd.extractLsb' 8 8 = 10#8 then some (.decOk (decTable r.e)) else some .invalidLength
  else none

/-- The response port shows a response: its status and its defined field (`10_state.md` R31, R32). The unspecified fields
are not looked at. -/
def Answer.ShownBy (p : Response) : Answer → Prop
  | .encOk re => p.status = 0#2 ∧ p.re = re
  | .decOk rx => p.status = 0#2 ∧ p.rx = rx
  | .invalidLength => p.status = 1#2

/-- The set of R100: the 80-bit values ENC produces. -/
def EncOutput (v : Ext80) : Prop :=
  v = 0#80 ∨
  (extExp v = 0x7FFF#15 ∧ extMant v = 0#64) ∨
  (0x3C01 ≤ (extExp v).toNat ∧ (extExp v).toNat ≤ 0x43FE ∧
    (extMant v).extractLsb' 63 1 = 1#1 ∧ (extMant v).extractLsb' 0 11 = 0#11) ∨
  (∃ p ≤ 51, (extExp v).toNat = 15309 + p ∧
    (extMant v).extractLsb' 63 1 = 1#1 ∧ (extMant v).toNat % 2 ^ (63 - p) = 0)

/-- What the spec promises of a response whatever the request: ENC's is in the set of R100, DEC's is no NaN (R117). -/
def Answer.Legal : Answer → Prop
  | .encOk re => EncOutput re
  | .decOk rx => isNaN rx = false
  | .invalidLength => True

/-- A good state: every response given is legal, and the response port shows the last one. -/
def State.Inv (s : State) : Prop :=
  (∀ a ∈ s.results, a.Legal) ∧ (∀ a, s.results.getLast? = some a → a.ShownBy s.rsp)

end Sys2Proof.Machine
end

