-- ==== Sys2Proof/Certificates/Slice0/Obligations.lean ====
section
/-! DEFINITION. The statements about the model, for the provers. Each docstring names the rule of the spec it formalises. -/
open Sys2Proof Sys2Proof.Machine

/-! ### Command words -/

/-- Words written out from R62, R63 and R74, and the reserved-word check of `95_test_vectors.md` section 2. -/
def Obligations.DecodeReadsWrittenOutWords : Prop :=
  decodeCmd 0b0000000000000001#16 = .instr .enc ∧
  decodeCmd 0b0000101000000010#16 = .instr (.dec 10#8) ∧
  decodeCmd 0b0000000000000010#16 = .instr (.dec 0#8) ∧
  decodeCmd 0b1111111100000010#16 = .instr (.dec 255#8) ∧
  decodeCmd 0x0A01#16 = .rejected (.encLengthNotZero 10#8) ∧
  decodeCmd 0x0000#16 = .rejected (.reservedOpcode 0#8) ∧
  decodeCmd 0x0003#16 = .rejected (.reservedOpcode 3#8)

/-- R65 on every word, in the arithmetic of the word as a number: ENC, DEC(LEN) or RESERVED. -/
def Obligations.DecodeClassifiesEveryWord : Prop :=
  ∀ cmd : CmdWord,
    (decodeCmd cmd = .instr .enc ↔ cmd.toNat % 256 = 1 ∧ cmd.toNat / 256 = 0) ∧
    (∀ len : Byte, decodeCmd cmd = .instr (.dec len) ↔ cmd.toNat % 256 = 2 ∧ cmd.toNat / 256 = len.toNat) ∧
    ((∃ why, decodeCmd cmd = .rejected why) ↔
      ¬(cmd.toNat % 256 = 1 ∧ cmd.toNat / 256 = 0) ∧ cmd.toNat % 256 ≠ 2)

/-- The count of R64: of the 65536 words, 1 is ENC, 256 are DEC and 65279 are reserved. -/
def Obligations.CommandWordCounts : Prop :=
  ((Finset.range 65536).filter fun n =>
    (match decodeCmd (BitVec.ofNat 16 n) with | .instr .enc => true | _ => false) = true).card = 1 ∧
  ((Finset.range 65536).filter fun n =>
    (match decodeCmd (BitVec.ofNat 16 n) with | .instr (.dec _) => true | _ => false) = true).card = 256 ∧
  ((Finset.range 65536).filter fun n =>
    (match decodeCmd (BitVec.ofNat 16 n) with | .rejected _ => true | _ => false) = true).card = 65279

/-- Decode and encode agree, both ways: every well-formed command is read back from its word, every word that decodes is the
word of what it decodes to, and each row of the opcode table covers exactly the words of its command. -/
def Obligations.EncodeDecodeAgree : Prop :=
  (∀ i : Instr, i.wf = true → decodeCmd (encode i) = .instr i) ∧
  (∀ cmd i, decodeCmd cmd = .instr i → encode i = cmd) ∧
  (∀ cmd row, row ∈ opcodeTable →
    (row.covers cmd = true ↔
      ∃ i : Instr, encode i = cmd ∧ row.mnemonic = (match i with | .enc => "ENC" | .dec _ => "DEC")))

/-! ### The step -/

/-- A step runs the decoded command: when the command word of the next request decodes to `i`, the step is `exec i` on the
state with that request at the port and off the list. -/
def Obligations.StepRunsDecodedCommand : Prop :=
  ∀ (s : State) (r : Request) (rest : List Request) (i : Instr),
    s.pending = r :: rest → decodeCmd r.cmd = .instr i → step s = exec i { s with req := r, pending := rest }

/-- R64 and R136 point 1: a reserved command word is refused before anything else, with the reason R64 gives. -/
def Obligations.StepRefusesReservedWords : Prop :=
  ∀ (s : State) (r : Request) (rest : List Request),
    s.pending = r :: rest → cmdAdmitted r.cmd = false →
      (r.cmd.toNat % 256 = 1 ∧ r.cmd.toNat / 256 ≠ 0 ∧
        step s = .refused (.reservedCommand (.encLengthNotZero (r.cmd.extractLsb' 8 8)))) ∨
      (r.cmd.toNat % 256 ≠ 1 ∧ r.cmd.toNat % 256 ≠ 2 ∧
        step s = .refused (.reservedCommand (.reservedOpcode (r.cmd.extractLsb' 0 8))))

/-- The machine takes a step exactly when a request with an admitted command word is pending, and no step faults (R131: no
other error exists; R98, R123: both commands are total). The refusal with no request pending is the model's (log 2). -/
def Obligations.StepAnswersExactlyAdmittedRequests : Prop :=
  ∀ s : State,
    ((∃ t, step s = .next t) ↔ ∃ r rest, s.pending = r :: rest ∧ cmdAdmitted r.cmd = true) ∧
    (s.pending = [] → step s = .refused .noRequest) ∧
    (∀ f, step s ≠ .fault f)

/-- The word that `withFetchWord` places is run by the very next step, whatever the state (the model's own interface,
log 3). -/
def Obligations.PlacedWordRunsNext : Prop :=
  ∀ (s : State) (i : Instr), ∃ r : Request,
    r.cmd = encode i ∧
    step (s.withFetchWord 16 (encode i).toNat) = exec i { s with req := r, pending := s.pending.tail } ∧
    (∀ r₀ rest, s.pending = r₀ :: rest → r.x = r₀.x ∧ r.e = r₀.e)

/-- The frame of both commands: the request port and the requests to come are unchanged, exactly one response is added and
the response port shows it, and its status is INVALID_LENGTH exactly for a DEC whose LEN is not 10, else OK (R28, R31,
R52). -/
def Obligations.CommandFrame : Prop :=
  ∀ (i : Instr) (s : State), ∃ t a,
    exec i s = .next t ∧ t.req = s.req ∧ t.pending = s.pending ∧ t.results = s.results ++ [a] ∧ a.ShownBy t.rsp ∧
    (t.rsp.status = 1#2 ↔ ∃ len : Byte, i = .dec len ∧ len ≠ 10#8) ∧
    (t.rsp.status = 0#2 ↔ ¬∃ len : Byte, i = .dec len ∧ len ≠ 10#8)

/-- R39: the machine's step is the partial function of R39, read through the closed forms of R97 and R124, and that function is
defined exactly on the admitted requests. -/
def Obligations.StepMeansBlockMeaning : Prop :=
  ∀ (s : State) (r : Request) (rest : List Request), s.pending = r :: rest →
    (∀ a, blockMeaning r = some a →
      ∃ t, step s = .next t ∧ t.results = s.results ++ [a] ∧ a.ShownBy t.rsp ∧ t.req = r ∧ t.pending = rest) ∧
    (blockMeaning r = none → ∃ why, step s = .refused (.reservedCommand why)) ∧
    ((∃ a, blockMeaning r = some a) ↔ cmdAdmitted r.cmd = true)

/-- R37 with R29: the response in its defined fields depends on nothing but the fields the command reads. Two states with any
histories, whose next requests have the same admitted command word and agree on `x` where it is ENC and on `e` where it is
DEC with LEN = 10, give the same response. -/
def Obligations.ResponseDependsOnReadFieldsOnly : Prop :=
  ∀ (s s' : State) (r r' : Request) (rest rest' : List Request),
    s.pending = r :: rest → s'.pending = r' :: rest' →
    cmdAdmitted r.cmd = true → r'.cmd = r.cmd →
    (r.cmd = 0x0001#16 → r'.x = r.x) → (r.cmd = 0x0A02#16 → r'.e = r.e) →
      ∃ t t' a, step s = .next t ∧ step s' = .next t' ∧
        t.results = s.results ++ [a] ∧ t'.results = s'.results ++ [a] ∧ a.ShownBy t.rsp ∧ a.ShownBy t'.rsp

/-- R53: presenting the same request twice gives the same defined response twice. -/
def Obligations.RepeatedRequestGetsSameResponse : Prop :=
  ∀ (s : State) (r : Request) (rest : List Request), s.pending = r :: r :: rest → cmdAdmitted r.cmd = true →
    ∃ t t' a, step s = .next t ∧ step t = .next t' ∧
      t'.results = s.results ++ [a, a] ∧ a.ShownBy t.rsp ∧ a.ShownBy t'.rsp

/-- The fields a response leaves unspecified (R32) hold the next draw of the free values, and each transaction takes one draw:
the model's own form for them (log 4). It says nothing of what the values are. -/
def Obligations.UnspecifiedFieldsAreDraws : Prop :=
  ∀ s : State,
    (∃ t, exec .enc s = .next t ∧ t.rsp.rx = Config.freeRx s.draws ∧ t.draws = s.draws + 1) ∧
    (∃ t, exec (.dec 10#8) s = .next t ∧ t.rsp.re = Config.freeRe s.draws ∧ t.draws = s.draws + 1) ∧
    (∀ len : Byte, len ≠ 10#8 → ∃ t, exec (.dec len) s = .next t ∧
      t.rsp.re = Config.freeRe s.draws ∧ t.rsp.rx = Config.freeRx s.draws ∧ t.draws = s.draws + 1)

/-- R151: the first request after reset is handled exactly as any later request. -/
def Obligations.FirstRequestAfterResetLikeAnyOther : Prop :=
  ∀ (s : State) (r : Request) (rest : List Request), s.pending = r :: rest → cmdAdmitted r.cmd = true →
    ∃ t t' a, step { State.reset with pending := [r] } = .next t ∧ step s = .next t' ∧
      t.results = [a] ∧ t'.results = s.results ++ [a] ∧ a.ShownBy t.rsp ∧ a.ShownBy t'.rsp

/-- R157, R154: a run over any list of admitted requests answers every one of them, in request order, each by its meaning,
and ends with none pending. -/
def Obligations.RunAnswersEveryRequestInOrder : Prop :=
  ∀ s : State, (∀ r ∈ s.pending, cmdAdmitted r.cmd = true) →
    ∃ t, Sys2Proof.core.run s.pending.length s = .next t ∧ t.pending = [] ∧
      t.results.map some = s.results.map some ++ s.pending.map blockMeaning

/-! ### An invariant of every step -/

/-- A good state at reset: no response given, and no request presented (R150, R38). -/
def Obligations.ResetIsGood : Prop :=
  State.reset.Inv ∧ State.reset.results = [] ∧ State.reset.pending = [] ∧ step State.reset = .refused .noRequest

/-- Every step keeps: each response given is legal (ENC's in the set of R100, DEC's no NaN by R117) and the port shows the
last one. -/
def Obligations.StepKeepsResponsesLegal : Prop :=
  ∀ s t : State, s.Inv → step s = .next t → t.Inv

/-! ### ENC -/

/-- R97 and R98: ENC completes in every state with status OK, and its result is the closed form of R97; all else but the
response port, the list of responses and the draws is unchanged, and `rx` is unspecified. -/
def Obligations.EncCompletesWithClosedForm : Prop :=
  ∀ s : State, ∃ rx n,
    exec .enc s = .next { s with
      rsp := { status := 0#2, re := encTable s.req.x, rx := rx }
      results := s.results ++ [.encOk (encTable s.req.x)]
      draws := n }

/-- R81: the sign flag is set exactly for a value below zero, and the stage leaves its magnitude: a positive number, a zero
(-0.0 only from -0.0), +inf or NaN. -/
def Obligations.SignFlagExactlyBelowZero : Prop :=
  ∀ u : Bin64,
    (lt0 u = true ↔ val u = .inf true ∨ ∃ a, val u = .fin true a ∧ 0 < a.value) ∧
    (lt0 u = true → signExtract u = (0x8000#16, binNeg u)) ∧
    (lt0 u = false → signExtract u = (0x0000#16, u)) ∧
    (∀ neg a, val u = .fin neg a → val (binNeg u) = .fin (!neg) a) ∧
    (∀ neg, val u = .inf neg → val (binNeg u) = .inf (!neg)) ∧
    (val u = .nan → val (binNeg u) = .nan) ∧
    (val (signExtract u).2 = .nan ∨ val (signExtract u).2 = .inf false ∨
      ∃ neg a, val (signExtract u).2 = .fin neg a ∧ (neg = true → u = 0x8000000000000000#64))

/-- R82: ENC of +0.0 and of -0.0 completes with ten zero bytes. -/
def Obligations.ZerosEncodeToTenZeroBytes : Prop :=
  ∀ s : State, (s.req.x = 0x0000000000000000#64 ∨ s.req.x = 0x8000000000000000#64) →
    ∃ t, exec .enc s = .next t ∧ t.rsp.status = 0#2 ∧ ∀ k ≤ 9, extByte t.rsp.re k = 0x00#8

/-- R87 with R132: ENC of an infinity or a NaN completes with status OK and the infinity encoding, the sign kept of -inf and
dropped of a NaN. -/
def Obligations.NonFiniteEncodesToInfinity : Prop :=
  ∀ s : State, isFinite s.req.x = false →
    ∃ t, exec .enc s = .next t ∧ t.rsp.status = 0#2 ∧
      t.rsp.re = (if s.req.x = 0xFFF0000000000000#64 then 0xFFFF0000000000000000#80 else 0x7FFF0000000000000000#80)

/-- R86: past the zero path the detector fires exactly for a non-finite input, whatever exponent `frexp` gives those; at the
boundary an exponent of 16384 is encoded as finite with EXP15 = 0x7FFE and 16385 is infinity. -/
def Obligations.DetectorFiresExactlyOnNonFinite : Prop :=
  (∀ (eAny : Int) (u : Bin64), eq0 u = false →
    (detects (frexp eAny (val (signExtract u).2)).1 (frexp eAny (val (signExtract u).2)).2 = true ↔
      isFinite u = false)) ∧
  (∀ a : Exact, a.value < 1 →
    detects (.fin false a) 16384 = false ∧ detects (.fin false a) 16385 = true ∧
    (scaleExponent 0x0000#16 a 16384).1 = 0x7FFE#16)

/-- R14: on a finite nonzero positive value `frexp` gives the unique `(m, e)` with `m` in [0.5, 1) and value `m * 2^e`; on
+inf and NaN it gives its argument and the exponent the block does not fix, on which no output depends. -/
def Obligations.FrexpIsUniqueNormalization : Prop :=
  ∀ (eAny : Int) (a : Exact), 0 < a.value →
    (∃ m e, frexp eAny (.fin false a) = (.fin false m, e) ∧
      1 / 2 ≤ m.value ∧ m.value < 1 ∧ a.value = m.value * (2 : ℚ) ^ e ∧
      ∀ (m' : ℚ) (e' : ℤ), 1 / 2 ≤ m' → m' < 1 → a.value = m' * (2 : ℚ) ^ e' → m' = m.value ∧ e' = e) ∧
    frexp eAny (.inf false) = (.inf false, eAny) ∧ frexp eAny .nan = (.nan, eAny) ∧
    ∀ (eAny' : Int) (u : Bin64), encBits eAny u = encBits eAny' u

/-- R84 and R85: the normalizer in bits, for a normal and for a subnormal input. -/
def Obligations.NormalizerBitForms : Prop :=
  ∀ (eAny : Int) (u : Bin64), isFinite u = true → isZero u = false →
    ∃ m e, frexp eAny (val (signExtract u).2) = (.fin false m, e) ∧
      (1 ≤ (binExp u).toNat → m.value = (2 ^ 52 + (binFrac u).toNat) / 2 ^ 53 ∧ e = (binExp u).toNat - 1022) ∧
      ((binExp u).toNat = 0 → m.value = (binFrac u).toNat / 2 ^ (Nat.log2 (binFrac u).toNat + 1) ∧
        e = (Nat.log2 (binFrac u).toNat : ℤ) - 1073)

/-- R91: for a finite nonzero input the exponent lies in [-1073, 1024] and the biased one in [0x3BCD, 0x43FE], so the detector
does not fire and the denormal rescale is not taken; and ENC never writes EXP15 = 0 with a nonzero mantissa. -/
def Obligations.EncReachableRanges : Prop :=
  (∀ (eAny : Int) (u : Bin64), isFinite u = true → isZero u = false →
    ∃ m e, frexp eAny (val (signExtract u).2) = (.fin false m, e) ∧
      -1073 ≤ e ∧ e ≤ 1024 ∧ 0x3BCD ≤ e + 16382 ∧ e + 16382 ≤ 0x43FE ∧
      m.value < 1 ∧ e ≤ 16384 ∧ detects (.fin false m) e = false) ∧
  (∀ (eAny : Int) (u : Bin64), detects (frexp eAny (val (signExtract u).2)).1 (frexp eAny (val (signExtract u).2)).2 = true →
    val u = .inf false ∨ val u = .inf true ∨ val u = .nan) ∧
  (∀ (eAny : Int) (u : Bin64), extExp (encBits eAny u) = 0#15 → extMant (encBits eAny u) = 0#64)

/-- R88, R89 and R90: bias by 16382; a negative biased exponent rescales the mantissa exactly and stores 0, and a magnitude
below 2^-16446 then gives an all-zero mantissa; otherwise EXP15 is the biased exponent and bit 15 the sign. -/
def Obligations.ExponentScalerRule : Prop :=
  ∀ (sign : SignExp) (m : Exact) (e : Int), (sign = 0x0000#16 ∨ sign = 0x8000#16) → m.value < 1 → e ≤ 16384 →
    (0 ≤ e + 16382 → ∃ sew, scaleExponent sign m e = (sew, m) ∧
      (sew.toNat : ℤ) = sign.toNat + (e + 16382) ∧ e + 16382 ≤ 0x7FFE) ∧
    (e + 16382 < 0 → ∃ m', scaleExponent sign m e = (sign, m') ∧
      m'.value = m.value * (2 : ℚ) ^ (e + 16382) ∧ m'.value < 1 / 2 ∧ (0 < m.value → 0 < m'.value) ∧
      (m.value * (2 : ℚ) ^ e < (2 : ℚ) ^ (-16446 : ℤ) → splitMantissa m' = (0#32, 0#32)))

/-- R92 and R93: the two halves are the floors the rules name, as unsigned 32-bit magnitudes with no wrap (R94), together the
floor of `m * 2^64`; bit 31 of the high half is 1 for `m` in [0.5, 1), and 0 below. -/
def Obligations.SplitterFloors : Prop :=
  ∀ m : Exact, m.value < 1 →
    ((splitMantissa m).1.toNat : ℤ) = ⌊m.value * 2 ^ 32⌋ ∧
    ((splitMantissa m).2.toNat : ℤ) = ⌊(m.value * 2 ^ 32 - (splitMantissa m).1.toNat) * 2 ^ 32⌋ ∧
    ((splitMantissa m).1.toNat : ℤ) * 2 ^ 32 + (splitMantissa m).2.toNat = ⌊m.value * 2 ^ 64⌋ ∧
    (1 / 2 ≤ m.value → (splitMantissa m).1.extractLsb' 31 1 = 1#1) ∧
    (m.value < 1 / 2 → (splitMantissa m).1.toNat < 2 ^ 31)

/-- R95 and the last sentence of R72: ENC writes every finite nonzero input so that the value of the encoding is the input
exactly, sign and magnitude. -/
def Obligations.EncPreservesValueExactly : Prop :=
  ∀ s : State, isFinite s.req.x = true → isZero s.req.x = false →
    ∃ t, exec .enc s = .next t ∧
      (extMagnitude t.rsp.re).value = binMag s.req.x ∧ extSign t.rsp.re = binSign s.req.x

/-- R99: flipping the sign of a finite nonzero input or of an infinity flips bit 79 of the result and nothing else; both signs
of a NaN and of zero encode alike. -/
def Obligations.EncSignFidelity : Prop :=
  ∀ s : State, ∃ t t',
    exec .enc s = .next t ∧ exec .enc { s with req := { s.req with x := s.req.x ^^^ (1#64 <<< 63) } } = .next t' ∧
    ((isFinite s.req.x = true ∧ isZero s.req.x = false) ∨ isInf s.req.x = true →
      t'.rsp.re = t.rsp.re ^^^ (1#80 <<< 79)) ∧
    (isNaN s.req.x = true ∨ isZero s.req.x = true → t'.rsp.re = t.rsp.re)

/-- R100: ENC produces exactly the values of the set R100 lists, and no others. -/
def Obligations.EncOutputSetIsExact : Prop :=
  ∀ v : Ext80, EncOutput v ↔ ∃ s t, exec .enc s = .next t ∧ t.rsp.re = v

/-- R96 with R46 and R47: the packer's ten bytes, big-endian. -/
def Obligations.PackerByteOrder : Prop :=
  ∀ (sew : SignExp) (hi lo : Word32),
    extByte (extPack sew hi lo) 0 = sew.extractLsb' 8 8 ∧
    extByte (extPack sew hi lo) 1 = sew.extractLsb' 0 8 ∧
    ∀ i ≤ 3,
      extByte (extPack sew hi lo) (2 + i) = hi.extractLsb' (24 - 8 * i) 8 ∧
      extByte (extPack sew hi lo) (6 + i) = lo.extractLsb' (24 - 8 * i) 8

/-! ### DEC -/

/-- R107: the fields DEC reads, from the bytes. -/
def Obligations.FieldsFromBytes : Prop :=
  ∀ v : Ext80,
    extSign v = (extByte v 0).extractLsb' 7 1 ∧
    (extExp v).toNat = ((extByte v 0).toNat % 128) <<< 8 ||| (extByte v 1).toNat ∧
    extHi v = extByte v 2 ++ extByte v 3 ++ extByte v 4 ++ extByte v 5 ∧
    extLo v = extByte v 6 ++ extByte v 7 ++ extByte v 8 ++ extByte v 9

/-- R106: DEC with LEN other than 10 completes with status INVALID_LENGTH and no data, whatever stands on `e`; with LEN = 10
it goes on to the stages. -/
def Obligations.DecLengthGuard : Prop :=
  ∀ (s : State) (len : Byte),
    (len ≠ 10#8 → ∃ re rx n,
      exec (.dec len) s = .next { s with
        rsp := { status := 1#2, re := re, rx := rx }
        results := s.results ++ [.invalidLength]
        draws := n }) ∧
    (len = 10#8 → ∃ t, exec (.dec len) s = .next t ∧ t.rsp.status = 0#2 ∧ t.rsp.rx = decBits s.req.e)

/-- R123 and R124: DEC completes for every LEN and every 80-bit pattern; with LEN = 10 the result is the closed form by range
of R124 and depends on `e` alone. -/
def Obligations.DecCompletesWithClosedForm : Prop :=
  ∀ (s : State) (len : Byte),
    (len = 10#8 → ∃ re n,
      exec (.dec len) s = .next { s with
        rsp := { status := 0#2, re := re, rx := decTable s.req.e }
        results := s.results ++ [.decOk (decTable s.req.e)]
        draws := n }) ∧
    (len ≠ 10#8 → ∃ re rx n,
      exec (.dec len) s = .next { s with
        rsp := { status := 1#2, re := re, rx := rx }
        results := s.results ++ [.invalidLength]
        draws := n })

/-- R15, first sentence: `RNE64(r)` is the binary64 value nearest to `r`, ties to the one whose last significand bit is 0; at
or above 2^1024 - 2^970 it is +inf. -/
def Obligations.RoundingIsNearestTiesToEven : Prop :=
  ∀ r : Exact,
    (overflowThreshold ≤ r.value → rne64 r = 0x7FF0000000000000#64) ∧
    (r.value < overflowThreshold →
      isFinite (rne64 r) = true ∧ binSign (rne64 r) = 0#1 ∧
      ∀ w : Bin64, isFinite w = true → binSign w = 0#1 →
        |binMag (rne64 r) - r.value| ≤ |binMag w - r.value| ∧
        (|binMag (rne64 r) - r.value| = |binMag w - r.value| → w ≠ rne64 r → (rne64 r).extractLsb' 0 1 = 0#1))

/-- R108: the conversion of a 32-bit word is exact and unsigned. -/
def Obligations.UnsignedConversionIsExact : Prop :=
  ∀ w : Word32, binMag (u2f w) = w.toNat ∧ isFinite (u2f w) = true ∧ binSign (u2f w) = 0#1

/-- R114: in the upper range each term of R112 is exact or +inf, and the magnitude is one rounding of `r`; with its three
examples. -/
def Obligations.SingleRoundingInUpperRange : Prop :=
  (∀ v : Ext80, 0x3C0C ≤ (extExp v).toNat → (extExp v).toNat ≤ 0x7FFE →
    (ldexp (u2f (extHi v)) ((extExp v).toNat - 16383 - 31) = plusInf ∨
      binMag (ldexp (u2f (extHi v)) ((extExp v).toNat - 16383 - 31)) =
        (extHi v).toNat * (2 : ℚ) ^ ((extExp v).toNat - 16383 - 31 : ℤ)) ∧
    (ldexp (u2f (extLo v)) ((extExp v).toNat - 16383 - 63) = plusInf ∨
      binMag (ldexp (u2f (extLo v)) ((extExp v).toNat - 16383 - 63)) =
        (extLo v).toNat * (2 : ℚ) ^ ((extExp v).toNat - 16383 - 63 : ℤ)) ∧
    decMagnitude (extExp v) (extHi v) (extLo v) = rne64 (extMagnitude v)) ∧
  decBits 0x3FFF8000000000000400#80 = 0x3FF0000000000000#64 ∧
  decBits 0x3FFF8000000000000C00#80 = 0x3FF0000000000002#64 ∧
  decBits 0x3FFF8000000000000401#80 = 0x3FF0000000000001#64

/-- R115: in the range of R114, DEC gives an infinity, signed by the sign bit, exactly when `r >= 2^1024 - 2^970`; with its
three examples. -/
def Obligations.DecOverflowThreshold : Prop :=
  (∀ s : State, 0x3C0C ≤ (extExp s.req.e).toNat → (extExp s.req.e).toNat ≤ 0x7FFE →
    ∃ t, exec (.dec 10#8) s = .next t ∧
      (isInf t.rsp.rx = true ↔ overflowThreshold ≤ (extMagnitude s.req.e).value) ∧
      binSign t.rsp.rx = extSign s.req.e) ∧
  decBits 0x43FEFFFFFFFFFFFFF800#80 = 0x7FEFFFFFFFFFFFFF#64 ∧
  decBits 0x43FEFFFFFFFFFFFFFC00#80 = 0x7FF0000000000000#64 ∧
  decBits 0x43FF8000000000000000#80 = 0x7FF0000000000000#64

/-- R116: at EXP15 up to 0x3BCB the result is a zero by the sign; in [0x3BCC, 0x3C0B] the two terms are rounded apart and then
added, which the example shows is not one rounding; and the examples (c) and (d). -/
def Obligations.DecLowRange : Prop :=
  (∀ v : Ext80, (extExp v).toNat ≤ 0x3BCB →
    (extMagnitude v).value < (2 : ℚ) ^ (-1075 : ℤ) ∧
    ldexp (u2f (extHi v)) ((extExp v).toNat - 16383 - 31) = plusZero ∧
    ldexp (u2f (extLo v)) ((extExp v).toNat - 16383 - 63) = plusZero ∧
    decBits v = (if extSign v = 1#1 then 0x8000000000000000#64 else 0#64)) ∧
  (∀ v : Ext80, 0x3BCC ≤ (extExp v).toNat → (extExp v).toNat ≤ 0x3C0B →
    decMagnitude (extExp v) (extHi v) (extLo v) =
      rne64 ((val (rne64 ⟨(extHi v).toNat, ((extExp v).toNat : ℤ) - 16414⟩)).mag.add
        (val (rne64 ⟨(extLo v).toNat, ((extExp v).toNat : ℤ) - 16446⟩)).mag)) ∧
  decBits 0x3BCC8000000000000001#80 = 0#64 ∧
  rne64 (extMagnitude 0x3BCC8000000000000001#80) = 1#64 ∧
  decBits 0x3BCCC000000000000000#80 = 1#64 ∧
  decBits 0x3BCD8000000000000000#80 = 1#64

/-- R117: DEC never returns a NaN; its magnitude is +0.0, positive finite or +inf before the sign. -/
def Obligations.DecNeverReturnsNaN : Prop :=
  ∀ s : State, ∃ t, exec (.dec 10#8) s = .next t ∧ isNaN t.rsp.rx = false ∧
    binSign (decMagnitude (extExp s.req.e) (extHi s.req.e) (extLo s.req.e)) = 0#1 ∧
    isNaN (decMagnitude (extExp s.req.e) (extHi s.req.e) (extLo s.req.e)) = false

/-- R110 with R113, R122 and the second point of R118: the zero and infinity classes, each with the sign applied. -/
def Obligations.DecZeroAndInfinityClasses : Prop :=
  ∀ s : State, ∃ t, exec (.dec 10#8) s = .next t ∧ t.rsp.status = 0#2 ∧
    (extExp s.req.e = 0x7FFF#15 →
      t.rsp.rx = (if extSign s.req.e = 1#1 then 0xFFF0000000000000#64 else 0x7FF0000000000000#64)) ∧
    (extExp s.req.e ≠ 0x7FFF#15 → extMant s.req.e = 0#64 →
      t.rsp.rx = (if extSign s.req.e = 1#1 then 0x8000000000000000#64 else 0x0000000000000000#64))

/-- R120: flipping bit 79 of the sequence negates the result, for every 80-bit pattern. -/
def Obligations.DecSignFidelity : Prop :=
  ∀ s : State, ∃ t t',
    exec (.dec 10#8) s = .next t ∧
    exec (.dec 10#8) { s with req := { s.req with e := s.req.e ^^^ (1#80 <<< 79) } } = .next t' ∧
    t'.rsp.rx = t.rsp.rx ^^^ (1#64 <<< 63)

/-- R119 and R121: what ENC writes, DEC reads back: bit for bit for every finite nonzero input; +0.0 for both zeros; the
infinities as they are, and +inf for every NaN. -/
def Obligations.RoundTripThroughTheBlock : Prop :=
  ∀ s : State, ∃ t t',
    exec .enc s = .next t ∧ exec (.dec 10#8) { t with req := { t.req with e := t.rsp.re } } = .next t' ∧
    t'.rsp.status = 0#2 ∧
    t'.rsp.rx =
      (if isZero s.req.x = true then 0x0000000000000000#64
       else if isNaN s.req.x = true then 0x7FF0000000000000#64
       else s.req.x)
end

