-- ==== Sys2Proof/Laws/Numbers.lean ====
section
/-! SUPPORT. The exact numbers `sig * 2^exp`: each operation on pairs is the rational operation on their values (R11). -/
namespace Sys2Proof.Machine

theorem two_zpow_pos (q : ℤ) : (0 : ℚ) < (2 : ℚ) ^ q := zpow_pos (by norm_num) q

theorem Exact.value_nonneg (a : Exact) : 0 ≤ a.value :=
  mul_nonneg (Nat.cast_nonneg _) (two_zpow_pos _).le

theorem Exact.value_pos_iff (a : Exact) : 0 < a.value ↔ 0 < a.sig := by
  unfold Exact.value
  rw [mul_pos_iff_of_pos_right (two_zpow_pos _)]
  exact Nat.cast_pos

theorem Exact.value_eq_zero_iff (a : Exact) : a.value = 0 ↔ a.sig = 0 := by
  simp [Exact.value, (two_zpow_pos a.exp).ne']

@[simp] theorem Exact.scale_sig (a : Exact) (k : ℤ) : (a.scale k).sig = a.sig := rfl

@[simp] theorem Exact.scale_exp (a : Exact) (k : ℤ) : (a.scale k).exp = a.exp + k := rfl

@[simp] theorem Exact.scale_value (a : Exact) (k : ℤ) : (a.scale k).value = a.value * (2 : ℚ) ^ k := by
  simp [Exact.value, zpow_add₀, mul_assoc]

/-- Counted in units of a weight not above its own, a pair has the same value. -/
theorem Exact.units_value (a : Exact) {q : ℤ} (h : q ≤ a.exp) : (a.units q : ℚ) * (2 : ℚ) ^ q = a.value := by
  have e : a.exp = (a.exp - q).toNat + q := by omega
  unfold Exact.units Exact.value
  conv_rhs => rw [e, zpow_add₀ (by norm_num), zpow_natCast]
  push_cast
  ring

theorem Exact.add_value (a b : Exact) : (a.add b).value = a.value + b.value := by
  rw [← a.units_value (min_le_left _ b.exp), ← b.units_value (min_le_right a.exp _)]
  simp [Exact.add, Exact.value, add_mul]

theorem Exact.le_iff (a b : Exact) : a.le b = true ↔ a.value ≤ b.value := by
  rw [← a.units_value (min_le_left _ b.exp), ← b.units_value (min_le_right a.exp _)]
  simp [Exact.le, mul_le_mul_iff_left₀ (two_zpow_pos _)]

theorem Exact.lt_iff (a b : Exact) : a.lt b = true ↔ a.value < b.value := by
  rw [← not_le, ← Exact.le_iff]
  simp [Exact.lt]

/-- Of a pair with a negative exponent, the value is the quotient `sig / 2^n`. -/
theorem Exact.value_of_neg (a : Exact) (h : ¬ 0 ≤ a.exp) : a.value = (a.sig : ℚ) / ((2 ^ (-a.exp).toNat : ℕ) : ℚ) := by
  have e : a.exp = -((-a.exp).toNat : ℤ) := by omega
  unfold Exact.value
  conv_lhs => rw [e, zpow_neg, zpow_natCast]
  push_cast
  rw [div_eq_mul_inv]

theorem Exact.floor_eq (a : Exact) : (a.floor : ℤ) = ⌊a.value⌋ := by
  unfold Exact.floor
  split
  · next h =>
    rw [← a.units_value h, zpow_zero, mul_one]
    exact (Int.floor_natCast _).symm
  · next h =>
    rw [a.value_of_neg h, Rat.floor_natCast_div_natCast]
    rfl

theorem Exact.frac_value (a : Exact) : a.frac.value = a.value - a.floor := by
  unfold Exact.frac Exact.floor
  split
  · next h =>
    have e := a.units_value h
    rw [zpow_zero, mul_one] at e
    rw [← e, sub_self]
    simp [Exact.value]
  · next h =>
    rw [a.value_of_neg h, Exact.value_of_neg ⟨a.sig % 2 ^ (-a.exp).toNat, a.exp⟩ h]
    have hp : ((2 ^ (-a.exp).toNat : ℕ) : ℚ) ≠ 0 := by positivity
    have hm : ((2 ^ (-a.exp).toNat * (a.sig / 2 ^ (-a.exp).toNat) + a.sig % 2 ^ (-a.exp).toNat : ℕ) : ℚ) = a.sig :=
      congrArg Nat.cast (Nat.div_add_mod a.sig (2 ^ (-a.exp).toNat))
    rw [Nat.cast_add, Nat.cast_mul] at hm
    field_simp
    linarith

theorem Exact.floor_le (a : Exact) : (a.floor : ℚ) ≤ a.value := by
  have h := a.floor_eq ▸ Int.floor_le a.value
  exact_mod_cast h

theorem Exact.lt_floor_add_one (a : Exact) : a.value < (a.floor : ℚ) + 1 := by
  have h := a.floor_eq ▸ Int.lt_floor_add_one a.value
  exact_mod_cast h

/-- Two pairs of one value have one floor. -/
theorem Exact.floor_congr {a b : Exact} (h : a.value = b.value) : a.floor = b.floor := by
  have := a.floor_eq.trans (h ▸ b.floor_eq.symm)
  exact_mod_cast this

/-- `2^p <= sig * 2^exp < 2^(p+1)` for `p = log2 sig + exp`. -/
theorem Exact.log2_bounds (a : Exact) (h : a.sig ≠ 0) :
    (2 : ℚ) ^ ((Nat.log2 a.sig : ℤ) + a.exp) ≤ a.value ∧ a.value < (2 : ℚ) ^ ((Nat.log2 a.sig : ℤ) + a.exp + 1) := by
  have h1 : 2 ^ Nat.log2 a.sig ≤ a.sig := Nat.log2_self_le h
  have h2 : a.sig < 2 ^ (Nat.log2 a.sig + 1) := Nat.lt_log2_self
  have e : (Nat.log2 a.sig : ℤ) + a.exp + 1 = ((Nat.log2 a.sig + 1 : ℕ) : ℤ) + a.exp := by push_cast; ring
  rw [e, zpow_add₀ (by norm_num), zpow_add₀ (by norm_num), zpow_natCast, zpow_natCast]
  unfold Exact.value
  constructor
  · exact mul_le_mul_of_nonneg_right (by exact_mod_cast h1) (two_zpow_pos _).le
  · exact mul_lt_mul_of_pos_right (by exact_mod_cast h2) (two_zpow_pos _)

/-- The exponent of the power of two below a value is unique. -/
theorem two_zpow_unique {v : ℚ} {p p' : ℤ} (h : (2 : ℚ) ^ p ≤ v ∧ v < (2 : ℚ) ^ (p + 1))
    (h' : (2 : ℚ) ^ p' ≤ v ∧ v < (2 : ℚ) ^ (p' + 1)) : p = p' := by
  have a := (zpow_lt_zpow_iff_right₀ (by norm_num : (1 : ℚ) < 2)).1 (h.1.trans_lt h'.2)
  have b := (zpow_lt_zpow_iff_right₀ (by norm_num : (1 : ℚ) < 2)).1 (h'.1.trans_lt h.2)
  omega

end Sys2Proof.Machine
end

