-- ==== Sys2Proof/Laws/Formats.lean ====
section
/-! SUPPORT. The two formats: fields of an assembled pattern, a pattern from its fields, and what each number's pattern
denotes (`30_encoding.md` R68, R70). -/
namespace Sys2Proof.Machine

theorem append_toNat {n m : Nat} (a : BitVec n) (b : BitVec m) : (a ++ b).toNat = a.toNat * 2 ^ m + b.toNat := by
  rw [BitVec.toNat_append, ← Nat.shiftLeft_add_eq_or_of_lt b.isLt, Nat.shiftLeft_eq]

/-! ### Fields as numbers -/

theorem binSign_toNat (u : Bin64) : (binSign u).toNat = u.toNat / 2 ^ 63 := by
  have := u.isLt
  simp only [binSign, BitVec.extractLsb'_toNat, Nat.shiftRight_eq_div_pow]
  omega

theorem binExp_toNat (u : Bin64) : (binExp u).toNat = u.toNat / 2 ^ 52 % 2 ^ 11 := by
  simp only [binExp, BitVec.extractLsb'_toNat, Nat.shiftRight_eq_div_pow]

theorem binFrac_toNat (u : Bin64) : (binFrac u).toNat = u.toNat % 2 ^ 52 := by
  simp only [binFrac, BitVec.extractLsb'_toNat, Nat.shiftRight_eq_div_pow, pow_zero, Nat.div_one]

theorem binOf_toNat (s : BitVec 1) (e : BitVec 11) (f : BitVec 52) :
    (binOf s e f).toNat = s.toNat * 2 ^ 63 + e.toNat * 2 ^ 52 + f.toNat := by
  simp only [binOf, append_toNat]
  omega

theorem extSign_toNat (v : Ext80) : (extSign v).toNat = v.toNat / 2 ^ 79 := by
  have := v.isLt
  simp only [extSign, BitVec.extractLsb'_toNat, Nat.shiftRight_eq_div_pow]
  omega

theorem extExp_toNat (v : Ext80) : (extExp v).toNat = v.toNat / 2 ^ 64 % 2 ^ 15 := by
  simp only [extExp, BitVec.extractLsb'_toNat, Nat.shiftRight_eq_div_pow]

theorem extHi_toNat (v : Ext80) : (extHi v).toNat = v.toNat / 2 ^ 32 % 2 ^ 32 := by
  simp only [extHi, BitVec.extractLsb'_toNat, Nat.shiftRight_eq_div_pow]

theorem extLo_toNat (v : Ext80) : (extLo v).toNat = v.toNat % 2 ^ 32 := by
  simp only [extLo, BitVec.extractLsb'_toNat, Nat.shiftRight_eq_div_pow, pow_zero, Nat.div_one]

theorem extMant_toNat (v : Ext80) : (extMant v).toNat = v.toNat % 2 ^ 64 := by
  simp only [extMant, BitVec.extractLsb'_toNat, Nat.shiftRight_eq_div_pow, pow_zero, Nat.div_one]

/-- `mant64 = {hiMant, loMant}` (R70). -/
theorem extMant_eq (v : Ext80) : (extMant v).toNat = (extHi v).toNat * 2 ^ 32 + (extLo v).toNat := by
  rw [extMant_toNat, extHi_toNat, extLo_toNat]
  omega

theorem extPack_toNat (sew : SignExp) (hi lo : Word32) :
    (extPack sew hi lo).toNat = sew.toNat * 2 ^ 64 + hi.toNat * 2 ^ 32 + lo.toNat := by
  simp only [extPack, append_toNat]
  omega

/-! ### Patterns from fields -/

@[simp] theorem binSign_binOf (s : BitVec 1) (e : BitVec 11) (f : BitVec 52) : binSign (binOf s e f) = s := by
  have := s.isLt; have := e.isLt; have := f.isLt
  apply BitVec.eq_of_toNat_eq
  rw [binSign_toNat, binOf_toNat]
  omega

@[simp] theorem binExp_binOf (s : BitVec 1) (e : BitVec 11) (f : BitVec 52) : binExp (binOf s e f) = e := by
  have := s.isLt; have := e.isLt; have := f.isLt
  apply BitVec.eq_of_toNat_eq
  rw [binExp_toNat, binOf_toNat]
  omega

@[simp] theorem binFrac_binOf (s : BitVec 1) (e : BitVec 11) (f : BitVec 52) : binFrac (binOf s e f) = f := by
  have := s.isLt; have := e.isLt; have := f.isLt
  apply BitVec.eq_of_toNat_eq
  rw [binFrac_toNat, binOf_toNat]
  omega

/-- A pattern is its three fields. -/
theorem binOf_fields (u : Bin64) : binOf (binSign u) (binExp u) (binFrac u) = u := by
  have := u.isLt
  apply BitVec.eq_of_toNat_eq
  rw [binOf_toNat, binSign_toNat, binExp_toNat, binFrac_toNat]
  omega

theorem bin_ext {u w : Bin64} (hs : binSign u = binSign w) (he : binExp u = binExp w) (hf : binFrac u = binFrac w) :
    u = w := by
  rw [← binOf_fields u, ← binOf_fields w, hs, he, hf]

theorem isZero_iff (u : Bin64) : isZero u = true ↔ binExp u = 0#11 ∧ binFrac u = 0#52 := by
  have := u.isLt
  simp only [isZero, beq_iff_eq, ← BitVec.toNat_inj, binExp_toNat, binFrac_toNat, BitVec.extractLsb'_toNat,
    Nat.shiftRight_eq_div_pow, BitVec.toNat_ofNat]
  omega

theorem isNaN_iff (u : Bin64) : isNaN u = true ↔ binExp u = 0x7FF#11 ∧ binFrac u ≠ 0#52 := by simp [isNaN]

theorem isInf_iff (u : Bin64) : isInf u = true ↔ binExp u = 0x7FF#11 ∧ binFrac u = 0#52 := by simp [isInf]

theorem isFinite_iff (u : Bin64) : isFinite u = true ↔ binExp u ≠ 0x7FF#11 := by
  simp only [isFinite, isNaN, isInf, Bool.and_eq_true, Bool.not_eq_true', Bool.and_eq_false_iff, beq_eq_false_iff_ne,
    bne_eq_false_iff_eq]
  by_cases h : binFrac u = 0#52 <;> simp [h]

theorem one_bit (b : BitVec 1) : b = 0#1 ∨ b = 1#1 := by
  have := b.isLt
  rcases (by omega : b.toNat = 0 ∨ b.toNat = 1) with h | h
  · exact .inl (BitVec.eq_of_toNat_eq h)
  · exact .inr (BitVec.eq_of_toNat_eq h)

/-! ### Negation -/

theorem xor_two_pow {n b : Nat} (h : b < 2 ^ n) : b ^^^ 2 ^ n = b + 2 ^ n := by
  rw [Nat.add_comm, show 2 ^ n + b = 2 ^ n ||| b by simpa using Nat.two_pow_add_eq_or_of_lt h 1]
  apply Nat.eq_of_testBit_eq
  intro i
  by_cases hi : n = i
  · subst hi
    simp [Nat.testBit_xor, Nat.testBit_or, Nat.testBit_lt_two_pow h]
  · simp [Nat.testBit_xor, Nat.testBit_or, hi]

/-- Flipping the top bit `n` of a number below `2^(n+1)` adds or subtracts `2^n`. -/
theorem xor_top_bit {n b : Nat} (h : b < 2 ^ (n + 1)) :
    b ^^^ 2 ^ n = if b < 2 ^ n then b + 2 ^ n else b - 2 ^ n := by
  split
  · next hb => exact xor_two_pow hb
  · next hb =>
    rw [pow_succ] at h
    have e : b = (b - 2 ^ n) ^^^ 2 ^ n := by rw [xor_two_pow (by omega)]; omega
    conv_lhs => rw [e]
    rw [Nat.xor_assoc, Nat.xor_self, Nat.xor_zero]

theorem binNeg_toNat (u : Bin64) : (binNeg u).toNat = if u.toNat < 2 ^ 63 then u.toNat + 2 ^ 63 else u.toNat - 2 ^ 63 := by
  rw [← xor_top_bit u.isLt]
  rfl

@[simp] theorem binExp_binNeg (u : Bin64) : binExp (binNeg u) = binExp u := by
  have := u.isLt
  apply BitVec.eq_of_toNat_eq
  rw [binExp_toNat, binExp_toNat, binNeg_toNat]
  split <;> omega

@[simp] theorem binFrac_binNeg (u : Bin64) : binFrac (binNeg u) = binFrac u := by
  have := u.isLt
  apply BitVec.eq_of_toNat_eq
  rw [binFrac_toNat, binFrac_toNat, binNeg_toNat]
  split <;> omega

@[simp] theorem binSign_binNeg (u : Bin64) : binSign (binNeg u) = ~~~ binSign u := by
  have := u.isLt
  apply BitVec.eq_of_toNat_eq
  rw [BitVec.toNat_not, binSign_toNat, binSign_toNat, binNeg_toNat]
  split <;> omega

@[simp] theorem binNeg_binNeg (u : Bin64) : binNeg (binNeg u) = u := by
  simp [binNeg]

end Sys2Proof.Machine
end

