-- ==== Sys2Proof/Laws/Commands.lean ====
section
/-! SUPPORT. The command word as a number: its two fields, what it decodes to, and the word of a command
(`30_encoding.md` R60 to R65). -/
namespace Sys2Proof

theorem cmdOpc_toNat (cmd : CmdWord) : (cmdOpc cmd).toNat = cmd.toNat % 256 := by
  simp [cmdOpc, BitVec.extractLsb'_toNat]

theorem cmdLen_toNat (cmd : CmdWord) : (cmdLen cmd).toNat = cmd.toNat / 256 := by
  have := cmd.isLt
  simp only [cmdLen, BitVec.extractLsb'_toNat, Nat.shiftRight_eq_div_pow]
  omega

theorem cmdOpc_eq_iff (cmd : CmdWord) (b : Byte) : cmdOpc cmd = b ↔ cmd.toNat % 256 = b.toNat := by
  rw [← BitVec.toNat_inj, cmdOpc_toNat]

theorem cmdLen_eq_iff (cmd : CmdWord) (b : Byte) : cmdLen cmd = b ↔ cmd.toNat / 256 = b.toNat := by
  rw [← BitVec.toNat_inj, cmdLen_toNat]

/-- A command word is its two fields. -/
theorem cmd_fields (cmd : CmdWord) : cmdLen cmd ++ cmdOpc cmd = cmd := by
  apply BitVec.eq_of_toNat_eq
  rw [Machine.append_toNat, cmdOpc_toNat, cmdLen_toNat]
  omega

@[simp] theorem cmdOpc_append (len opc : Byte) : cmdOpc (len ++ opc) = opc := by
  have := opc.isLt
  apply BitVec.eq_of_toNat_eq
  rw [cmdOpc_toNat, Machine.append_toNat]
  omega

@[simp] theorem cmdLen_append (len opc : Byte) : cmdLen (len ++ opc) = len := by
  have := opc.isLt
  apply BitVec.eq_of_toNat_eq
  rw [cmdLen_toNat, Machine.append_toNat]
  omega

/-- The three things decoding a word can answer. -/
theorem decodeCmd_cases (cmd : CmdWord) :
    (cmdOpc cmd = 0x01#8 ∧ cmdLen cmd = 0x00#8 ∧ decodeCmd cmd = .instr .enc) ∨
    (cmdOpc cmd = 0x01#8 ∧ cmdLen cmd ≠ 0x00#8 ∧ decodeCmd cmd = .rejected (.encLengthNotZero (cmdLen cmd))) ∨
    (cmdOpc cmd = 0x02#8 ∧ decodeCmd cmd = .instr (.dec (cmdLen cmd))) ∨
    (cmdOpc cmd ≠ 0x01#8 ∧ cmdOpc cmd ≠ 0x02#8 ∧ decodeCmd cmd = .rejected (.reservedOpcode (cmdOpc cmd))) := by
  unfold decodeCmd
  by_cases h1 : cmdOpc cmd = 0x01#8
  · rw [if_pos h1]
    by_cases h2 : cmdLen cmd = 0x00#8
    · exact .inl ⟨h1, h2, if_pos h2⟩
    · exact .inr (.inl ⟨h1, h2, if_neg h2⟩)
  · rw [if_neg h1]
    by_cases h2 : cmdOpc cmd = 0x02#8
    · exact .inr (.inr (.inl ⟨h2, if_pos h2⟩))
    · exact .inr (.inr (.inr ⟨h1, h2, if_neg h2⟩))

theorem cmdAdmitted_iff (cmd : CmdWord) :
    cmdAdmitted cmd = true ↔ (cmdOpc cmd = 0x01#8 ∧ cmdLen cmd = 0x00#8) ∨ cmdOpc cmd = 0x02#8 := by
  rcases decodeCmd_cases cmd with ⟨h1, h2, -⟩ | ⟨h1, h2, -⟩ | ⟨h1, -⟩ | ⟨h1, h2, -⟩ <;>
    simp_all [cmdAdmitted, cmdOpc, cmdLen]

/-- A word decodes to a command exactly when it is admitted. -/
theorem cmdAdmitted_iff_decodes (cmd : CmdWord) : cmdAdmitted cmd = true ↔ ∃ i, decodeCmd cmd = .instr i := by
  rw [cmdAdmitted_iff]
  rcases decodeCmd_cases cmd with ⟨h1, h2, e⟩ | ⟨h1, h2, e⟩ | ⟨h1, e⟩ | ⟨h1, h2, e⟩ <;> simp_all

end Sys2Proof
end

