-- ==== Sys2Proof/Laws/Rounding.lean ====
section
/-! SUPPORT. Binary64 magnitudes as numbers on a grid, and what `rne64` can do (`00_scope.md` R15, `30_encoding.md` R68). -/
namespace Sys2Proof.Machine

/-- `k * 2^q` in the one form a binary64 pattern holds it: 53 bits, weight at least -1074, normal unless at weight -1074. -/
structure OnGrid (k : Nat) (q : ℤ) : Prop where
  lt : k < 2 ^ 53
  le : -1074 ≤ q
  normal : 2 ^ 52 ≤ k ∨ q = -1074

/-! ### The value of a pattern -/

theorem val_of_exp_zero {u : Bin64} (h : binExp u = 0#11) :
    val u = .fin (binSign u == 1#1) ⟨(binFrac u).toNat, -1074⟩ := by
  simp [val, h]

theorem val_of_normal {u : Bin64} (h0 : binExp u ≠ 0#11) (h : binExp u ≠ 0x7FF#11) :
    val u = .fin (binSign u == 1#1) ⟨2 ^ 52 + (binFrac u).toNat, ((binExp u).toNat : ℤ) - 1075⟩ := by
  have h0' : (binExp u).toNat ≠ 0 := fun e => h0 (BitVec.eq_of_toNat_eq e)
  have h' : (binExp u).toNat ≠ 0x7FF := fun e => h (BitVec.eq_of_toNat_eq e)
  simp only [val, if_neg h', if_neg h0']

theorem val_of_inf {u : Bin64} (h : isInf u = true) : val u = .inf (binSign u == 1#1) := by
  obtain ⟨he, hf⟩ := (isInf_iff u).1 h
  simp [val, he, hf]

theorem val_of_nan {u : Bin64} (h : isNaN u = true) : val u = .nan := by
  obtain ⟨he, hf⟩ := (isNaN_iff u).1 h
  have hf' : (binFrac u).toNat ≠ 0 := fun e => hf (BitVec.eq_of_toNat_eq e)
  simp only [val, he, if_neg hf']
  rfl

/-- A finite pattern is a grid number, and its fields are read back from it. -/
theorem val_finite {u : Bin64} (h : isFinite u = true) :
    ∃ k q, val u = .fin (binSign u == 1#1) ⟨k, q⟩ ∧ OnGrid k q ∧ q ≤ 971 ∧
      (k < 2 ^ 52 → (binExp u).toNat = 0 ∧ (binFrac u).toNat = k) ∧
      (2 ^ 52 ≤ k → ((binExp u).toNat : ℤ) = q + 1075 ∧ (binFrac u).toNat = k - 2 ^ 52) := by
  have hf := (binFrac u).isLt
  have hne := (isFinite_iff u).1 h
  by_cases h0 : binExp u = 0#11
  · exact ⟨_, _, val_of_exp_zero h0, ⟨by omega, by omega, .inr rfl⟩, by omega, fun _ => ⟨by simp [h0], rfl⟩, fun _ => by omega⟩
  · have h0' : (binExp u).toNat ≠ 0 := fun e => h0 (BitVec.eq_of_toNat_eq e)
    have h' : (binExp u).toNat ≠ 0x7FF := fun e => hne (BitVec.eq_of_toNat_eq e)
    have := (binExp u).isLt
    exact ⟨_, _, val_of_normal h0 hne, ⟨by omega, by omega, .inl (by omega)⟩, by omega, fun _ => by omega, fun _ => by omega⟩

theorem binMag_of_val {u : Bin64} {neg : Bool} {k : Nat} {q : ℤ} (h : val u = .fin neg ⟨k, q⟩) :
    binMag u = k * (2 : ℚ) ^ q := by
  simp [binMag, h, Val.mag, Exact.value]

theorem OnGrid.eq_of_le {k k' : Nat} {q q' : ℤ} (h : OnGrid k q) (h' : OnGrid k' q') (hq : q ≤ q')
    (e : (k : ℚ) * (2 : ℚ) ^ q = k' * (2 : ℚ) ^ q') : k = k' ∧ q = q' := by
  have e' : k = k' * 2 ^ (q' - q).toNat := by
    have u := Exact.units_value ⟨k', q'⟩ hq
    have v : (⟨k', q'⟩ : Exact).value = k * (2 : ℚ) ^ q := e.symm
    rw [v] at u
    exact_mod_cast (mul_right_cancel₀ (two_zpow_pos q).ne' u).symm
  rcases Nat.eq_zero_or_pos (q' - q).toNat with z | pos
  · rw [z, pow_zero, mul_one] at e'
    exact ⟨e', by omega⟩
  · have h2 : 2 ^ 1 ≤ 2 ^ (q' - q).toNat := Nat.pow_le_pow_right (by omega) pos
    have hk' : 2 ^ 52 ≤ k' := h'.normal.resolve_right (by have := h.le; omega)
    have := Nat.mul_le_mul hk' h2
    have := h.lt
    omega

/-- One number has one grid form. -/
theorem OnGrid.unique {k k' : Nat} {q q' : ℤ} (h : OnGrid k q) (h' : OnGrid k' q')
    (e : (k : ℚ) * (2 : ℚ) ^ q = k' * (2 : ℚ) ^ q') : k = k' ∧ q = q' := by
  rcases le_total q q' with hq | hq
  · exact h.eq_of_le h' hq e
  · exact (h'.eq_of_le h hq e.symm).imp Eq.symm Eq.symm

/-- A finite pattern is determined by its sign and its magnitude. -/
theorem binMag_injective {u w : Bin64} (hu : isFinite u = true) (hw : isFinite w = true) (hs : binSign u = binSign w)
    (e : binMag u = binMag w) : u = w := by
  obtain ⟨k, q, hv, hg, -, h1, h2⟩ := val_finite hu
  obtain ⟨k', q', hv', hg', -, h1', h2'⟩ := val_finite hw
  rw [binMag_of_val hv, binMag_of_val hv'] at e
  obtain ⟨rfl, rfl⟩ := hg.unique hg' e
  rcases Nat.lt_or_ge k (2 ^ 52) with hk | hk
  · exact bin_ext hs (BitVec.eq_of_toNat_eq ((h1 hk).1.trans (h1' hk).1.symm))
      (BitVec.eq_of_toNat_eq ((h1 hk).2.trans (h1' hk).2.symm))
  · exact bin_ext hs (BitVec.eq_of_toNat_eq (by have := (h2 hk).1; have := (h2' hk).1; omega))
      (BitVec.eq_of_toNat_eq ((h2 hk).2.trans (h2' hk).2.symm))

theorem binMag_nonneg (u : Bin64) : 0 ≤ binMag u := Exact.value_nonneg _

@[simp] theorem binMag_binNeg (u : Bin64) : binMag (binNeg u) = binMag u := by
  simp only [binMag, val, binExp_binNeg, binFrac_binNeg]
  split
  · split <;> rfl
  · split <;> rfl

/-! ### Packing a grid number -/

theorem zpow_two_lt {a b : ℤ} (h : (2 : ℚ) ^ a < (2 : ℚ) ^ b) : a < b :=
  (zpow_lt_zpow_iff_right₀ (by norm_num)).1 h

theorem zpow_two_le {a b : ℤ} (h : a ≤ b) : (2 : ℚ) ^ a ≤ (2 : ℚ) ^ b :=
  zpow_le_zpow_right₀ (by norm_num) h

theorem weight_lt_of_value_lt {k n : Nat} {q : ℤ} {b : ℤ} (hk : 2 ^ n ≤ k) (h : (k : ℚ) * (2 : ℚ) ^ q < (2 : ℚ) ^ b) :
    n + q < b := by
  apply zpow_two_lt
  rw [zpow_add₀ (by norm_num), zpow_natCast]
  refine lt_of_le_of_lt (mul_le_mul_of_nonneg_right ?_ (two_zpow_pos q).le) h
  exact_mod_cast hk

/-- What `binPack` gives: the finite pattern of sign 0 with that magnitude, whose last bit is the number's. -/
theorem binPack_spec {k : Nat} {q : ℤ} (hk : k ≤ 2 ^ 53) (hq : -1074 ≤ q) (hn : 2 ^ 52 ≤ k ∨ q = -1074)
    (hv : (k : ℚ) * (2 : ℚ) ^ q < (2 : ℚ) ^ (1024 : ℤ)) :
    binSign (binPack k q) = 0#1 ∧ isFinite (binPack k q) = true ∧ binMag (binPack k q) = k * (2 : ℚ) ^ q ∧
      (binPack k q).toNat % 2 = k % 2 := by
  unfold binPack
  split
  · next h =>
    obtain rfl : q = -1074 := hn.resolve_left (by omega)
    have hm := val_of_exp_zero (u := binOf 0#1 0#11 (BitVec.ofNat 52 k)) (binExp_binOf ..)
    simp only [binFrac_binOf, BitVec.toNat_ofNat, Nat.mod_eq_of_lt h] at hm
    refine ⟨binSign_binOf .., by rw [isFinite_iff, binExp_binOf]; decide, binMag_of_val hm, ?_⟩
    rw [binOf_toNat, BitVec.toNat_ofNat, BitVec.toNat_ofNat, BitVec.toNat_ofNat, Nat.mod_eq_of_lt h]
    omega
  · next h =>
    have hw := weight_lt_of_value_lt (n := 52) (by omega) hv
    split
    · next h3 =>
      have he : (BitVec.ofNat 11 (q + 1075).toNat).toNat = (q + 1075).toNat := by
        rw [BitVec.toNat_ofNat, Nat.mod_eq_of_lt (by omega)]
      have hf : (BitVec.ofNat 52 (k - 2 ^ 52)).toNat = k - 2 ^ 52 := by
        rw [BitVec.toNat_ofNat, Nat.mod_eq_of_lt (by omega)]
      have hfin : BitVec.ofNat 11 (q + 1075).toNat ≠ 0x7FF#11 := fun e => by
        have := congrArg BitVec.toNat e
        rw [he] at this
        simp at this
        omega
      have h0 : BitVec.ofNat 11 (q + 1075).toNat ≠ 0#11 := fun e => by
        have := congrArg BitVec.toNat e
        rw [he] at this
        simp at this
        omega
      have hm := val_of_normal (u := binOf 0#1 (BitVec.ofNat 11 (q + 1075).toNat) (BitVec.ofNat 52 (k - 2 ^ 52)))
        (by rwa [binExp_binOf]) (by rwa [binExp_binOf])
      rw [binFrac_binOf, binExp_binOf, he, hf, show 2 ^ 52 + (k - 2 ^ 52) = k by omega,
        show (((q + 1075).toNat : ℕ) : ℤ) - 1075 = q by omega] at hm
      refine ⟨binSign_binOf .., by rwa [isFinite_iff, binExp_binOf], binMag_of_val hm, ?_⟩
      rw [binOf_toNat, hf]
      omega
    · next h3 =>
      obtain rfl : k = 2 ^ 53 := by omega
      have hw := weight_lt_of_value_lt (n := 53) le_rfl hv
      have he : (BitVec.ofNat 11 (q + 1076).toNat).toNat = (q + 1076).toNat := by
        rw [BitVec.toNat_ofNat, Nat.mod_eq_of_lt (by omega)]
      have hfin : BitVec.ofNat 11 (q + 1076).toNat ≠ 0x7FF#11 := fun e => by
        have := congrArg BitVec.toNat e
        rw [he] at this
        simp at this
        omega
      have h0 : BitVec.ofNat 11 (q + 1076).toNat ≠ 0#11 := fun e => by
        have := congrArg BitVec.toNat e
        rw [he] at this
        simp at this
        omega
      have hm := val_of_normal (u := binOf 0#1 (BitVec.ofNat 11 (q + 1076).toNat) 0#52)
        (by rwa [binExp_binOf]) (by rwa [binExp_binOf])
      rw [binFrac_binOf, binExp_binOf, he, show (((q + 1076).toNat : ℕ) : ℤ) - 1075 = q + 1 by omega] at hm
      refine ⟨binSign_binOf .., by rwa [isFinite_iff, binExp_binOf], ?_, ?_⟩
      · rw [binMag_of_val hm, zpow_add₀ (by norm_num)]
        norm_num
        ring
      · rw [binOf_toNat]
        norm_num
        omega

/-! ### Rounding -/

/-- The kept part goes to the nearest integer, and to the even one of two. -/
theorem roundNearest_spec (n : Exact) :
    |(roundNearest n : ℚ) - n.value| ≤ 1 / 2 ∧ (|(roundNearest n : ℚ) - n.value| = 1 / 2 → roundNearest n % 2 = 0) := by
  have h1 := n.floor_le
  have h2 := n.lt_floor_add_one
  have hh : (⟨1, -1⟩ : Exact).value = 1 / 2 := by simp [Exact.value]
  have hr : roundsUp n n.floor = true ↔
      1 / 2 < n.value - n.floor ∨ (1 / 2 ≤ n.value - n.floor ∧ n.floor % 2 = 1) := by
    simp [roundsUp, Exact.lt_iff, Exact.le_iff, hh, Exact.frac_value]
  unfold roundNearest
  split
  · next h =>
    rw [hr] at h
    push_cast
    rw [abs_of_nonneg (by rcases h with h | h <;> linarith)]
    refine ⟨by rcases h with h | h <;> linarith, fun e => ?_⟩
    rcases h with h | ⟨-, h⟩
    · linarith
    · omega
  · next h =>
    rw [hr, not_or, not_and_or] at h
    rw [abs_of_nonpos (by linarith)]
    refine ⟨by linarith [h.1], fun e => ?_⟩
    rcases h.2 with h | h
    · linarith
    · omega

theorem roundNearest_bounds (n : Exact) : n.floor ≤ roundNearest n ∧ roundNearest n ≤ n.floor + 1 := by
  unfold roundNearest
  split <;> omega

/-- The rounding depends on the value alone. -/
theorem roundNearest_congr {n n' : Exact} (h : n.value = n'.value) : roundNearest n = roundNearest n' := by
  have hf := Exact.floor_congr h
  have e : n.frac.value = n'.frac.value := by rw [Exact.frac_value, Exact.frac_value, h, hf]
  have h1 : (⟨1, -1⟩ : Exact).lt n.frac = (⟨1, -1⟩ : Exact).lt n'.frac := by
    rw [Bool.eq_iff_iff, Exact.lt_iff, Exact.lt_iff, e]
  have h2 : (⟨1, -1⟩ : Exact).le n.frac = (⟨1, -1⟩ : Exact).le n'.frac := by
    rw [Bool.eq_iff_iff, Exact.le_iff, Exact.le_iff, e]
  have h3 : roundsUp n n.floor = roundsUp n' n'.floor := by simp only [roundsUp, h1, h2, hf]
  rw [roundNearest, roundNearest, h3, hf]

theorem packOrOverflow_eq (k : Nat) (q : ℤ) :
    packOrOverflow k q = if (2 : ℚ) ^ (1024 : ℤ) ≤ k * (2 : ℚ) ^ q then plusInf else binPack k q := by
  have hle : Exact.le ⟨1, 1024⟩ ⟨k, q⟩ = true ↔ (2 : ℚ) ^ (1024 : ℤ) ≤ k * (2 : ℚ) ^ q := by
    rw [Exact.le_iff]
    simp only [Exact.value, Nat.cast_one, one_mul]
  simp only [packOrOverflow, hle]

theorem rne64_of_sig_zero {r : Exact} (h : r.sig = 0) : rne64 r = plusZero := by simp [rne64, h]

/-- What `rne64` can do with a positive number: a grid weight `q` for it, the nearest multiple `k` of that weight with ties to
even, and then +inf or the pattern of `k * 2^q`. -/
theorem rne64_cases {r : Exact} (h : 0 < r.value) :
    ∃ (k : Nat) (q : ℤ), k ≤ 2 ^ 53 ∧ -1074 ≤ q ∧ (2 ^ 52 ≤ k ∨ q = -1074) ∧
      (q = -1074 ∨ (2 : ℚ) ^ (q + 52) ≤ r.value) ∧ r.value < (2 : ℚ) ^ (q + 53) ∧
      |(k : ℚ) - r.value * (2 : ℚ) ^ (-q)| ≤ 1 / 2 ∧ (|(k : ℚ) - r.value * (2 : ℚ) ^ (-q)| = 1 / 2 → k % 2 = 0) ∧
      rne64 r = if (2 : ℚ) ^ (1024 : ℤ) ≤ k * (2 : ℚ) ^ q then plusInf else binPack k q := by
  have hs : r.sig ≠ 0 := ((r.value_pos_iff).1 h).ne'
  obtain ⟨b1, b2⟩ := r.log2_bounds hs
  generalize hq : lastWeight r = q
  have hq' : max ((Nat.log2 r.sig : ℤ) + r.exp - 52) (-1074) = q := hq
  generalize (Nat.log2 r.sig : ℤ) + r.exp = p at b1 b2 hq'
  have hv : (r.scale (-q)).value = r.value * (2 : ℚ) ^ (-q) := Exact.scale_value ..
  obtain ⟨n1, n2⟩ := roundNearest_spec (r.scale (-q))
  obtain ⟨f1, f2⟩ := roundNearest_bounds (r.scale (-q))
  have hlt : r.value < (2 : ℚ) ^ (q + 53) := b2.trans_le (zpow_two_le (by omega))
  have hnlt : (r.scale (-q)).value < 2 ^ 53 := by
    rw [hv, zpow_neg, ← div_eq_mul_inv, div_lt_iff₀ (two_zpow_pos q)]
    rwa [zpow_add₀ (by norm_num), mul_comm] at hlt
  have hfl : (r.scale (-q)).floor < 2 ^ 53 := by exact_mod_cast (Exact.floor_le _).trans_lt hnlt
  have hge : q = -1074 ∨ (2 : ℚ) ^ (q + 52) ≤ r.value := by
    rcases le_or_gt (p - 52) (-1074) with hc | hc
    · exact .inl (by omega)
    · exact .inr (by rwa [show q + 52 = p by omega])
  refine ⟨roundNearest (r.scale (-q)), q, by omega, by omega, ?_, hge, hlt, hv ▸ n1, hv ▸ n2, ?_⟩
  · refine hge.symm.imp_left fun hc => ?_
    have : (2 : ℚ) ^ 52 ≤ (r.scale (-q)).value := by
      rw [hv, zpow_neg, ← div_eq_mul_inv, le_div_iff₀ (two_zpow_pos q)]
      rwa [zpow_add₀ (by norm_num), mul_comm] at hc
    have h3 := this.trans_lt (Exact.lt_floor_add_one _)
    have : 2 ^ 52 < (r.scale (-q)).floor + 1 := by exact_mod_cast h3
    omega
  · rw [rne64, if_neg hs, hq, packOrOverflow_eq]

/-- RNE64 depends on the number, not on the pair that names it. -/
theorem rne64_congr {r r' : Exact} (h : r.value = r'.value) : rne64 r = rne64 r' := by
  by_cases h0 : r.sig = 0
  · have h0' : r'.sig = 0 := by rw [← Exact.value_eq_zero_iff, ← h, Exact.value_eq_zero_iff]; exact h0
    rw [rne64_of_sig_zero h0, rne64_of_sig_zero h0']
  · have h0' : r'.sig ≠ 0 := by rw [Ne, ← Exact.value_eq_zero_iff, ← h, Exact.value_eq_zero_iff]; exact h0
    have hp := two_zpow_unique (r.log2_bounds h0) (h ▸ r'.log2_bounds h0')
    have hq : lastWeight r = lastWeight r' := by rw [lastWeight, lastWeight, hp]
    have hn : (r.scale (-lastWeight r')).value = (r'.scale (-lastWeight r')).value := by
      rw [Exact.scale_value, Exact.scale_value, h]
    rw [rne64, rne64, if_neg h0, if_neg h0', hq, roundNearest_congr hn]

/-- A number that binary64 holds is rounded to itself. -/
theorem rne64_of_grid {r : Exact} {k : Nat} {q : ℤ} (e : r.value = k * (2 : ℚ) ^ q) (hk : k < 2 ^ 53) (hq : -1074 ≤ q)
    (hv : r.value < (2 : ℚ) ^ (1024 : ℤ)) :
    isFinite (rne64 r) = true ∧ binSign (rne64 r) = 0#1 ∧ binMag (rne64 r) = r.value := by
  rcases r.value_nonneg.eq_or_lt with z | pos
  · rw [rne64_of_sig_zero ((r.value_eq_zero_iff).1 z.symm), ← z]
    refine ⟨by decide, by decide, ?_⟩
    rw [binMag_of_val (val_of_exp_zero (u := plusZero) (binExp_binOf ..))]
    simp [plusZero]
  · obtain ⟨k', q', h1, h2, h3, h4, -, h6, -, h8⟩ := rne64_cases pos
    have hqq : q' ≤ q := by
      rcases h4 with h4 | h4
      · omega
      · have : r.value < (2 : ℚ) ^ (53 + q) := by
          rw [e, zpow_add₀ (by norm_num)]
          exact mul_lt_mul_of_pos_right (by exact_mod_cast hk) (two_zpow_pos q)
        have := zpow_two_lt (h4.trans_lt this)
        omega
    have hu : r.value * (2 : ℚ) ^ (-q') = (⟨k, q⟩ : Exact).units q' := by
      have := Exact.units_value ⟨k, q⟩ hqq
      rw [show (⟨k, q⟩ : Exact).value = r.value from e.symm] at this
      rw [← this, mul_assoc, ← zpow_add₀ (by norm_num)]
      simp
    rw [hu] at h6
    have hkk : k' = (⟨k, q⟩ : Exact).units q' := by
      have h6' : |((k' : ℤ) - ((⟨k, q⟩ : Exact).units q' : ℤ) : ℤ)| < 1 := by
        have : (|((k' : ℤ) - ((⟨k, q⟩ : Exact).units q' : ℤ) : ℤ)| : ℚ) ≤ 1 / 2 := by push_cast; exact h6
        have h7 : ((|((k' : ℤ) - ((⟨k, q⟩ : Exact).units q' : ℤ) : ℤ)| : ℤ) : ℚ) < 1 := by push_cast; push_cast at this; linarith
        exact_mod_cast h7
      have := Int.abs_lt_one_iff.1 h6'
      omega
    have hval : (k' : ℚ) * (2 : ℚ) ^ q' = r.value := by
      rw [hkk, Exact.units_value ⟨k, q⟩ hqq]
      exact e.symm
    rw [hval, if_neg (not_le.2 hv)] at h8
    obtain ⟨p1, p2, p3, -⟩ := binPack_spec h1 h2 h3 (by rw [hval]; exact hv)
    rw [h8]
    exact ⟨p2, p1, p3.trans hval⟩

/-- `rne64` gives sign 0 and no NaN: +0.0, a positive finite value or +inf. -/
theorem rne64_sign_not_nan (r : Exact) : binSign (rne64 r) = 0#1 ∧ isNaN (rne64 r) = false := by
  rcases r.value_nonneg.eq_or_lt with z | pos
  · rw [rne64_of_sig_zero ((r.value_eq_zero_iff).1 z.symm)]
    decide
  · obtain ⟨k, q, h1, h2, h3, -, -, -, -, h8⟩ := rne64_cases pos
    rw [h8]
    split
    · decide
    · next h =>
      obtain ⟨p1, p2, -⟩ := binPack_spec h1 h2 h3 (not_le.1 h)
      refine ⟨p1, ?_⟩
      simp only [isFinite, Bool.and_eq_true, Bool.not_eq_true'] at p2
      exact p2.1

/-- The powers of two around the overflow threshold, in units of `2^970`. -/
theorem overflow_powers : ∃ a : ℚ, 0 < a ∧ (2 : ℚ) ^ (970 : ℤ) = a ∧ (2 : ℚ) ^ (971 : ℤ) = 2 * a ∧
    (2 : ℚ) ^ (1023 : ℤ) = 2 ^ 53 * a ∧ (2 : ℚ) ^ (1024 : ℤ) = 2 ^ 54 * a := by
  refine ⟨(2 : ℚ) ^ (970 : ℤ), two_zpow_pos _, rfl, ?_, ?_, ?_⟩
  · rw [show (971 : ℤ) = 1 + 970 by norm_num, zpow_add₀ (by norm_num), zpow_one]
  · rw [show (1023 : ℤ) = 53 + 970 by norm_num, zpow_add₀ (by norm_num)]
    rfl
  · rw [show (1024 : ℤ) = 54 + 970 by norm_num, zpow_add₀ (by norm_num)]
    rfl

/-- A number at or above `2^1024` is above the threshold. -/
theorem overflowThreshold_le {v : ℚ} (h : (2 : ℚ) ^ (1024 : ℤ) ≤ v) : overflowThreshold ≤ v := by
  have := two_zpow_pos 970
  unfold overflowThreshold
  generalize (2 : ℚ) ^ (970 : ℤ) = a at *
  linarith only [h, this]

/-- A number below a power of two up to `2^1023` is below the threshold. -/
theorem lt_overflowThreshold {v : ℚ} {p : ℤ} (hp : p ≤ 1023) (h : v ≤ (2 : ℚ) ^ p) : v < overflowThreshold := by
  have h' := h.trans (zpow_two_le hp)
  obtain ⟨a, ha, e970, -, e1023, e1024⟩ := overflow_powers
  rw [overflowThreshold, e970, e1024]
  rw [e1023] at h'
  linarith only [h', ha]

/-- RNE64 overflows exactly at or above `2^1024 - 2^970`. -/
theorem rne64_eq_inf_iff (r : Exact) : rne64 r = plusInf ↔ overflowThreshold ≤ r.value := by
  unfold overflowThreshold
  obtain ⟨a, ha, e970, e971, e1023, e1024⟩ := overflow_powers
  rcases r.value_nonneg.eq_or_lt with z | pos
  · rw [rne64_of_sig_zero ((r.value_eq_zero_iff).1 z.symm), ← z, e1024, e970]
    constructor
    · intro e
      exact absurd e (by decide)
    · intro e
      linarith only [e, ha]
  · obtain ⟨k, q, h1, h2, h3, h4, h5, h6, h7, h8⟩ := rne64_cases pos
    have hq := two_zpow_pos q
    generalize hn : r.value * (2 : ℚ) ^ (-q) = n at h6 h7
    have hr : r.value = n * (2 : ℚ) ^ q := by
      rw [← hn, mul_assoc, ← zpow_add₀ (by norm_num), neg_add_cancel, zpow_zero, mul_one]
    have h6' := abs_le.1 h6
    have hinf : rne64 r = plusInf ↔ (2 : ℚ) ^ (1024 : ℤ) ≤ k * (2 : ℚ) ^ q := by
      rw [h8]
      constructor
      · intro e
        by_contra hc
        rw [if_neg hc] at e
        have := (binPack_spec h1 h2 h3 (not_le.1 hc)).2.1
        rw [e] at this
        exact absurd this (by decide)
      · exact fun e => if_pos e
    rw [hinf]
    rcases lt_trichotomy q 971 with hlt | rfl | hgt
    · have hle : (2 : ℚ) ^ q ≤ a := e970 ▸ zpow_two_le (by omega)
      have hk : (k : ℚ) ≤ 2 ^ 53 := by exact_mod_cast h1
      have h5' : r.value < 2 ^ 53 * a := h5.trans_le (e1023 ▸ zpow_two_le (by omega))
      have : (k : ℚ) * (2 : ℚ) ^ q ≤ 2 ^ 53 * a := mul_le_mul hk hle hq.le (by norm_num)
      rw [e1024, e970]
      constructor <;> intro h
      · linarith only [h, this, ha]
      · linarith only [h, h5', ha]
    · rw [hr, e1024, e970, e971, show (2 : ℚ) ^ 54 * a = 2 ^ 53 * (2 * a) by ring,
        show (2 : ℚ) ^ 53 * (2 * a) - a = (2 ^ 53 - 1 / 2) * (2 * a) by ring,
        mul_le_mul_iff_left₀ (by linarith only [ha]), mul_le_mul_iff_left₀ (by linarith only [ha])]
      constructor
      · intro h
        linarith only [h, h6'.2]
      · intro h
        by_contra hc
        have hlt : k < 2 ^ 53 := by exact_mod_cast not_le.1 hc
        have hle : (k : ℚ) ≤ 2 ^ 53 - 1 := by
          have : ((k + 1 : ℕ) : ℚ) ≤ ((2 ^ 53 : ℕ) : ℚ) := by exact_mod_cast hlt
          push_cast at this
          linarith only [this]
        have hk : (k : ℚ) = 2 ^ 53 - 1 := by linarith only [hle, h, h6'.1]
        have hk' : k = 2 ^ 53 - 1 := by
          have : ((k + 1 : ℕ) : ℚ) = ((2 ^ 53 : ℕ) : ℚ) := by
            push_cast
            linarith only [hk]
          have : k + 1 = 2 ^ 53 := by exact_mod_cast this
          omega
        have := h7 (by rw [abs_of_nonpos (by linarith only [hk, h])]; linarith only [hk, h, h6'.1])
        omega
    · have hge : (2 : ℚ) ^ (1024 : ℤ) ≤ r.value := (zpow_two_le (by omega)).trans (h4.resolve_left (by omega))
      have hk : (2 : ℚ) ^ 52 ≤ k := by exact_mod_cast h3.resolve_right (by omega)
      have hw : (4 : ℚ) * a ≤ (2 : ℚ) ^ q := by
        have : (2 : ℚ) ^ (972 : ℤ) = 4 * a := by
          rw [show (972 : ℤ) = 1 + 971 by norm_num, zpow_add₀ (by norm_num), e971, zpow_one]
          ring
        rw [← this]
        exact zpow_two_le (by omega)
      have : (2 : ℚ) ^ 52 * (4 * a) ≤ k * (2 : ℚ) ^ q := mul_le_mul hk hw (by linarith only [ha]) (Nat.cast_nonneg _)
      rw [e1024] at hge
      rw [e1024, e970]
      constructor <;> intro
      · linarith only [hge, ha]
      · linarith only [this]

end Sys2Proof.Machine
end

