-- ==== Sys2Proof/Laws/Encoder.lean ====
section
/-! SUPPORT. ENC's stages, one lemma each: what a stage gives (`40_encode.md` R81 to R96). -/
namespace Sys2Proof.Machine

/-! ### Classes of an input -/

theorem isFinite_of_isZero {u : Bin64} (h : isZero u = true) : isFinite u = true := by
  rw [isFinite_iff, ((isZero_iff u).1 h).1]
  decide

/-- An input is a zero, a finite nonzero, an infinity or a NaN. -/
theorem bin_classes (u : Bin64) :
    isZero u = true ∨ (isFinite u = true ∧ isZero u = false) ∨ isInf u = true ∨ isNaN u = true := by
  by_cases h : binExp u = 0x7FF#11
  · by_cases hf : binFrac u = 0#52
    · exact .inr (.inr (.inl ((isInf_iff u).2 ⟨h, hf⟩)))
    · exact .inr (.inr (.inr ((isNaN_iff u).2 ⟨h, hf⟩)))
  · cases hz : isZero u
    · exact .inr (.inl ⟨(isFinite_iff u).2 h, rfl⟩)
    · exact .inl rfl

theorem isNaN_of_isInf {u : Bin64} (h : isInf u = true) : isNaN u = false := by
  simp [isNaN, ((isInf_iff u).1 h).2]

theorem isZero_of_not_finite {u : Bin64} (h : isFinite u = false) : isZero u = false := by
  cases hz : isZero u
  · rfl
  · rw [isFinite_of_isZero hz] at h
    cases h

theorem isFinite_of_isInf {u : Bin64} (h : isInf u = true) : isFinite u = false := by simp [isFinite, h]

theorem isFinite_of_isNaN {u : Bin64} (h : isNaN u = true) : isFinite u = false := by simp [isFinite, h]

theorem isNaN_of_isFinite {u : Bin64} (h : isFinite u = true) : isNaN u = false := by
  simp only [isFinite, Bool.and_eq_true, Bool.not_eq_true'] at h
  exact h.1

theorem isInf_of_isFinite {u : Bin64} (h : isFinite u = true) : isInf u = false := by
  simp only [isFinite, Bool.and_eq_true, Bool.not_eq_true'] at h
  exact h.2

@[simp] theorem isFinite_binNeg (u : Bin64) : isFinite (binNeg u) = isFinite u := by
  simp [isFinite, isNaN, isInf]

/-- A finite nonzero input is a positive grid number. -/
theorem val_nonzero {u : Bin64} (h : isFinite u = true) (hz : isZero u = false) :
    ∃ k q, val u = .fin (binSign u == 1#1) ⟨k, q⟩ ∧ OnGrid k q ∧ q ≤ 971 ∧ k ≠ 0 ∧
      (k < 2 ^ 52 → (binExp u).toNat = 0 ∧ (binFrac u).toNat = k) ∧
      (2 ^ 52 ≤ k → ((binExp u).toNat : ℤ) = q + 1075 ∧ (binFrac u).toNat = k - 2 ^ 52) := by
  obtain ⟨k, q, hv, hg, hq, h1, h2⟩ := val_finite h
  refine ⟨k, q, hv, hg, hq, ?_, h1, h2⟩
  rintro rfl
  obtain ⟨he, hf⟩ := h1 (by norm_num)
  have : isZero u = true := (isZero_iff u).2 ⟨BitVec.eq_of_toNat_eq he, BitVec.eq_of_toNat_eq hf⟩
  rw [this] at hz
  cases hz

/-! ### Step 1 and step 3: sign and normalizer -/

/-- The sign flag of an input that is no NaN and no zero is its sign bit at bit 15. -/
theorem signExtract_of_signed {u : Bin64} (hn : isNaN u = false) (hz : isZero u = false) :
    signExtract u = if binSign u = 1#1 then (0x8000#16, binNeg u) else (0x0000#16, u) := by
  rcases one_bit (binSign u) with h | h <;> simp [signExtract, lt0, h, hn, hz]

theorem signExtract_of_isNaN {u : Bin64} (h : isNaN u = true) : signExtract u = (0x0000#16, u) := by
  simp [signExtract, lt0, h]

/-- After step 1 the value of a finite nonzero input is its magnitude. -/
theorem val_signExtract {u : Bin64} (h : isFinite u = true) (hz : isZero u = false) {neg : Bool} {a : Exact}
    (hv : val u = .fin neg a) : val (signExtract u).2 = .fin false a := by
  have hne := (isFinite_iff u).1 h
  rw [signExtract_of_signed (isNaN_of_isFinite h) hz]
  have key : ∀ w : Bin64, binSign w = 0#1 → binExp w = binExp u → binFrac w = binFrac u → val w = .fin false a := by
    intro w hs he hf
    by_cases h0 : binExp u = 0#11
    · rw [val_of_exp_zero (he.trans h0), hs, hf]
      rw [val_of_exp_zero h0] at hv
      cases hv
      rfl
    · rw [val_of_normal (he ▸ h0) (he ▸ hne), hs, hf, he]
      rw [val_of_normal h0 hne] at hv
      cases hv
      rfl
  rcases one_bit (binSign u) with hs | hs
  · rw [if_neg (by rw [hs]; decide)]
    exact key u hs rfl rfl
  · rw [if_pos hs]
    exact key _ (by rw [binSign_binNeg, hs]; decide) (binExp_binNeg u) (binFrac_binNeg u)

/-- The normalizer on a nonzero number (R83): a mantissa in [0.5, 1) and the exponent that keeps the value. -/
theorem frexp_spec (eAny : ℤ) (neg : Bool) {a : Exact} (h : a.sig ≠ 0) :
    frexp eAny (.fin neg a) =
      (.fin neg ⟨a.sig, -(Nat.log2 a.sig + 1 : ℤ)⟩, a.exp + (Nat.log2 a.sig + 1 : ℤ)) ∧
    1 / 2 ≤ (⟨a.sig, -(Nat.log2 a.sig + 1 : ℤ)⟩ : Exact).value ∧
    (⟨a.sig, -(Nat.log2 a.sig + 1 : ℤ)⟩ : Exact).value < 1 ∧
    a.value = (⟨a.sig, -(Nat.log2 a.sig + 1 : ℤ)⟩ : Exact).value * (2 : ℚ) ^ (a.exp + (Nat.log2 a.sig + 1 : ℤ)) := by
  have b := Exact.log2_bounds ⟨a.sig, -(Nat.log2 a.sig + 1 : ℤ)⟩ h
  rw [show (Nat.log2 a.sig : ℤ) + -(Nat.log2 a.sig + 1 : ℤ) = -1 by ring] at b
  refine ⟨rfl, by simpa using b.1, by simpa using b.2, ?_⟩
  rw [Exact.value, Exact.value, mul_assoc, ← zpow_add₀ (by norm_num)]
  congr 2
  ring

theorem detects_of_finite {m : Exact} {e : ℤ} (hm : m.value < 1) (he : e ≤ 16384) :
    detects (.fin false m) e = false := by
  have h1 : m.lt ⟨1, 0⟩ = true := by rw [Exact.lt_iff]; simpa [Exact.value] using hm
  simp [detects, Val.lt1, h1, he]

/-! ### Step 5 and step 6: scaler and splitter -/

/-- The sign merge on a biased exponent that fits: bit 15 is the sign and EXP15 the exponent (R90). -/
theorem signMerge_toNat {sign : SignExp} (hs : sign = 0x0000#16 ∨ sign = 0x8000#16) {b : Nat} (hb : b < 2 ^ 15) :
    (sign ||| BitVec.ofNat 16 b).toNat = sign.toNat + b := by
  rw [BitVec.toNat_or, BitVec.toNat_ofNat, Nat.mod_eq_of_lt (by omega)]
  rcases hs with rfl | rfl
  · simp
  · have h2 := Nat.shiftLeft_add_eq_or_of_lt hb 1
    rw [Nat.shiftLeft_eq] at h2
    exact h2.symm

/-- The two halves of a mantissa below 1 are the floors of R92 and R93, with no wrap, together `floor(m * 2^64)`. -/
theorem splitMantissa_spec {m : Exact} (h : m.value < 1) :
    ((splitMantissa m).1.toNat : ℤ) = ⌊m.value * 2 ^ 32⌋ ∧
    ((splitMantissa m).2.toNat : ℤ) = ⌊(m.value * 2 ^ 32 - (splitMantissa m).1.toNat) * 2 ^ 32⌋ ∧
    ((splitMantissa m).1.toNat : ℤ) * 2 ^ 32 + (splitMantissa m).2.toNat = ⌊m.value * 2 ^ 64⌋ := by
  have e32 : ∀ a : Exact, (a.scale 32).value = a.value * 2 ^ 32 := fun a => by
    rw [Exact.scale_value]; norm_cast
  have hlt : (m.scale 32).floor < 2 ^ 32 := by
    have := (Exact.floor_le (m.scale 32)).trans_lt (by rw [e32]; linarith : (m.scale 32).value < 2 ^ 32)
    exact_mod_cast this
  have hhi : (splitMantissa m).1.toNat = (m.scale 32).floor := by
    simp only [splitMantissa, BitVec.toNat_ofNat]
    exact Nat.mod_eq_of_lt hlt
  have hfv : ((m.scale 32).frac.scale 32).value = (m.value * 2 ^ 32 - (m.scale 32).floor) * 2 ^ 32 := by
    rw [e32, Exact.frac_value, e32]
  have hlo' : ((m.scale 32).frac.scale 32).floor < 2 ^ 32 := by
    have h1 := Exact.lt_floor_add_one (m.scale 32)
    rw [e32] at h1
    have := (Exact.floor_le ((m.scale 32).frac.scale 32)).trans_lt (by rw [hfv]; linarith : _ < (2 : ℚ) ^ 32)
    exact_mod_cast this
  have hlo : (splitMantissa m).2.toNat = ((m.scale 32).frac.scale 32).floor := by
    simp only [splitMantissa, BitVec.toNat_ofNat]
    exact Nat.mod_eq_of_lt hlo'
  refine ⟨by rw [hhi, Exact.floor_eq, e32], by rw [hlo, hhi, Exact.floor_eq, hfv], ?_⟩
  rw [hlo, hhi, Exact.floor_eq ((m.scale 32).frac.scale 32), hfv, eq_comm, Int.floor_eq_iff]
  have h1 := Int.floor_le ((m.value * 2 ^ 32 - (m.scale 32).floor) * 2 ^ 32)
  have h2 := Int.lt_floor_add_one ((m.value * 2 ^ 32 - (m.scale 32).floor) * 2 ^ 32)
  push_cast
  constructor <;> linarith

/-! ### The whole command -/

theorem encBits_of_isZero (eAny : ℤ) {u : Bin64} (h : isZero u = true) : encBits eAny u = 0#80 := by
  simp only [encBits, eq0, h, if_true]
  rfl

theorem infEncoding_plus : infEncoding 0x0000#16 = 0x7FFF0000000000000000#80 := by decide

theorem infEncoding_minus : infEncoding 0x8000#16 = 0xFFFF0000000000000000#80 := by decide

/-- A nonzero input whose value after step 1 is no number is encoded as infinity, whatever `eAny` (R86, R87). -/
theorem encBits_of_not_number (eAny : ℤ) {u : Bin64} (hz : isZero u = false)
    (hv : val (signExtract u).2 = .inf false ∨ val (signExtract u).2 = .nan) :
    encBits eAny u = infEncoding (signExtract u).1 := by
  rcases hv with hv | hv <;> simp [encBits, eq0, hz, hv, frexp, detects, Val.lt1]

theorem val_signExtract_of_isInf {u : Bin64} (h : isInf u = true) : val (signExtract u).2 = .inf false := by
  rw [signExtract_of_signed (isNaN_of_isInf h) (isZero_of_not_finite (isFinite_of_isInf h))]
  have hi : isInf (binNeg u) = true := by
    rw [isInf_iff, binExp_binNeg, binFrac_binNeg]
    exact (isInf_iff u).1 h
  rcases one_bit (binSign u) with hs | hs
  · simp [hs, val_of_inf h]
  · simp [hs, val_of_inf hi]

theorem encBits_of_isNaN (eAny : ℤ) {u : Bin64} (h : isNaN u = true) : encBits eAny u = 0x7FFF0000000000000000#80 := by
  rw [encBits_of_not_number eAny (isZero_of_not_finite (isFinite_of_isNaN h))
    (.inr (by rw [signExtract_of_isNaN h]; exact val_of_nan h)), signExtract_of_isNaN h]
  exact infEncoding_plus

theorem encBits_of_isInf (eAny : ℤ) {u : Bin64} (h : isInf u = true) :
    encBits eAny u = if binSign u = 1#1 then 0xFFFF0000000000000000#80 else 0x7FFF0000000000000000#80 := by
  have hz := isZero_of_not_finite (isFinite_of_isInf h)
  rw [encBits_of_not_number eAny hz (.inl (val_signExtract_of_isInf h)), signExtract_of_signed (isNaN_of_isInf h) hz]
  rcases one_bit (binSign u) with hs | hs
  · simp [hs, infEncoding_plus]
  · simp [hs, infEncoding_minus]

/-- ENC of a finite nonzero input `k * 2^q`, as a number: the sign at bit 79, the biased exponent at bit 64, and `k` moved up
until its top bit stands at bit 63 (R88, R90, R95). -/
theorem encBits_of_finite (eAny : ℤ) {u : Bin64} (h : isFinite u = true) (hz : isZero u = false) {neg : Bool} {k : Nat} {q : ℤ}
    (hv : val u = .fin neg ⟨k, q⟩) :
    (encBits eAny u).toNat =
      (binSign u).toNat * 2 ^ 79 + (q + Nat.log2 k + 16383).toNat * 2 ^ 64 + k * 2 ^ (63 - Nat.log2 k) := by
  obtain ⟨k', q', hv', hg, hq, hk, -, -⟩ := val_nonzero h hz
  obtain ⟨rfl, rfl⟩ : k = k' ∧ q = q' := by rw [hv] at hv'; cases hv'; exact ⟨rfl, rfl⟩
  have hlog : Nat.log2 k < 53 := (Nat.log2_lt hk).2 hg.lt
  obtain ⟨f1, f2, f3, -⟩ := frexp_spec eAny false (a := ⟨k, q⟩) hk
  have hb0 : ¬ q + (Nat.log2 k + 1 : ℤ) + 16382 < 0 := by have := hg.le; omega
  have hs : (signExtract u).1 = 0x0000#16 ∨ (signExtract u).1 = 0x8000#16 := by
    rw [signExtract_of_signed (isNaN_of_isFinite h) hz]
    split
    · exact .inr rfl
    · exact .inl rfl
  have hsn : (signExtract u).1.toNat = (binSign u).toNat * 2 ^ 15 := by
    rw [signExtract_of_signed (isNaN_of_isFinite h) hz]
    rcases one_bit (binSign u) with e | e <;> simp [e]
  have he : encBits eAny u = extPack ((signExtract u).1 ||| BitVec.ofNat 16 (q + (Nat.log2 k + 1 : ℤ) + 16382).toNat)
      (splitMantissa ⟨k, -(Nat.log2 k + 1 : ℤ)⟩).1 (splitMantissa ⟨k, -(Nat.log2 k + 1 : ℤ)⟩).2 := by
    simp only [encBits, eq0, hz, val_signExtract h hz hv, f1, detects_of_finite f3 (by omega : q + (Nat.log2 k + 1 : ℤ) ≤ 16384),
      Bool.false_eq_true, if_false, Val.mag, scaleExponent, if_neg hb0]
  have hm : (⟨k, -(Nat.log2 k + 1 : ℤ)⟩ : Exact).value * 2 ^ 64 = ((k * 2 ^ (63 - Nat.log2 k) : ℕ) : ℚ) := by
    rw [Exact.value, mul_assoc, show (2 : ℚ) ^ 64 = (2 : ℚ) ^ (64 : ℤ) by norm_cast, ← zpow_add₀ (by norm_num),
      show -((Nat.log2 k : ℤ) + 1) + 64 = ((63 - Nat.log2 k : ℕ) : ℤ) by omega, zpow_natCast]
    push_cast
    rfl
  have h64 := (splitMantissa_spec f3).2.2
  dsimp only at h64
  rw [hm, Int.floor_natCast] at h64
  rw [he, extPack_toNat, signMerge_toNat hs (by omega), hsn]
  have : (q + (Nat.log2 k + 1 : ℤ) + 16382).toNat = (q + Nat.log2 k + 16383).toNat := by congr 1; ring
  rw [this]
  omega

/-- The mantissa `encBits_of_finite` gives is normalised: its top bit is bit 63. -/
theorem encMantissa_bounds {k : Nat} (hk : k ≠ 0) (h : k < 2 ^ 53) :
    2 ^ 63 ≤ k * 2 ^ (63 - Nat.log2 k) ∧ k * 2 ^ (63 - Nat.log2 k) < 2 ^ 64 := by
  have hlog : Nat.log2 k < 53 := (Nat.log2_lt hk).2 h
  have h1 : 2 ^ Nat.log2 k ≤ k := Nat.log2_self_le hk
  have h2 : k < 2 ^ (Nat.log2 k + 1) := Nat.lt_log2_self
  constructor
  · calc 2 ^ 63 = 2 ^ Nat.log2 k * 2 ^ (63 - Nat.log2 k) := by rw [← pow_add]; congr 1; omega
      _ ≤ _ := Nat.mul_le_mul_right _ h1
  · calc k * 2 ^ (63 - Nat.log2 k) < 2 ^ (Nat.log2 k + 1) * 2 ^ (63 - Nat.log2 k) :=
        Nat.mul_lt_mul_of_pos_right h2 (by positivity)
      _ = 2 ^ 64 := by rw [← pow_add]; congr 1; omega

end Sys2Proof.Machine
end

