-- ==== Sys2Proof/Laws/Decoder.lean ====
section
/-! SUPPORT. DEC's stages, one lemma each: what a stage gives (`41_decode.md` R107 to R113). -/
namespace Sys2Proof.Machine

theorem plusZero_facts : isFinite plusZero = true ∧ binSign plusZero = 0#1 ∧ binMag plusZero = 0 := by
  refine ⟨by decide, by decide, ?_⟩
  rw [binMag_of_val (val_of_exp_zero (u := plusZero) (binExp_binOf ..))]
  simp [plusZero]

/-- The unsigned conversion is exact (R108). -/
theorem u2f_spec (w : Word32) : isFinite (u2f w) = true ∧ binSign (u2f w) = 0#1 ∧ binMag (u2f w) = w.toNat := by
  have hw := w.isLt
  have e : (⟨w.toNat, 0⟩ : Exact).value = w.toNat := by simp [Exact.value]
  have hlt : (w.toNat : ℚ) < (2 : ℚ) ^ (1024 : ℤ) := by
    have h1 : (w.toNat : ℚ) < (2 : ℚ) ^ (32 : ℤ) := by exact_mod_cast hw
    exact h1.trans_le (zpow_two_le (by norm_num))
  have := rne64_of_grid (r := ⟨w.toNat, 0⟩) (k := w.toNat) (q := 0) rfl (by omega) (by norm_num) (by rw [e]; exact hlt)
  rw [e] at this
  exact this

/-- A scaled mantissa word is one rounding of `w * 2^k` (R112). -/
theorem ldexp_u2f (w : Word32) (k : ℤ) : ldexp (u2f w) k = rne64 ⟨w.toNat, k⟩ := by
  apply rne64_congr
  rw [Exact.scale_value, show (val (u2f w)).mag.value = w.toNat from (u2f_spec w).2.2]
  rfl

/-- Binary64 addition of two values that are not infinite is one rounding of any pair that names the sum (R15). -/
theorem binAdd_eq {a b : Bin64} (ha : isInf a = false) (hb : isInf b = false) {r : Exact}
    (h : r.value = binMag a + binMag b) : binAdd a b = rne64 r := by
  simp only [binAdd, ha, hb, Bool.or_self, Bool.false_eq_true, if_false]
  apply rne64_congr
  rw [Exact.add_value, h]
  rfl

theorem binAdd_of_isInf {a b : Bin64} (h : isInf a = true ∨ isInf b = true) : binAdd a b = plusInf := by
  rcases h with h | h <;> simp [binAdd, h]

/-- Step 5 as two roundings and a sum (R111, R112). -/
theorem reconstruct_eq (exp15 : BitVec 15) (hi lo : Word32) :
    reconstruct exp15 hi lo =
      binAdd (rne64 ⟨hi.toNat, (exp15.toNat : ℤ) - 16383 - 31⟩) (rne64 ⟨lo.toNat, (exp15.toNat : ℤ) - 16383 - 63⟩) := by
  simp only [reconstruct, ldexp_u2f]

/-- Addition gives sign 0 and no NaN. -/
theorem binAdd_sign_not_nan (a b : Bin64) : binSign (binAdd a b) = 0#1 ∧ isNaN (binAdd a b) = false := by
  unfold binAdd
  split
  · decide
  · exact rne64_sign_not_nan _

/-- The three classes of step 3 to 5, in their order (R109, R110, R112). -/
theorem decMagnitude_cases (exp15 : BitVec 15) (hi lo : Word32) :
    (exp15 = 0#15 ∧ hi = 0#32 ∧ lo = 0#32 ∧ decMagnitude exp15 hi lo = plusZero) ∨
    (exp15 = 0x7FFF#15 ∧ decMagnitude exp15 hi lo = plusInf) ∨
    (exp15 ≠ 0x7FFF#15 ∧ decMagnitude exp15 hi lo = reconstruct exp15 hi lo) := by
  unfold decMagnitude
  by_cases h : exp15 = 0#15 ∧ hi = 0#32 ∧ lo = 0#32
  · exact .inl ⟨h.1, h.2.1, h.2.2, if_pos h⟩
  · rw [if_neg h]
    by_cases h2 : exp15 = 0x7FFF#15
    · exact .inr (.inl ⟨h2, if_pos h2⟩)
    · exact .inr (.inr ⟨h2, if_neg h2⟩)

/-- Away from EXP15 = 0x7FFF the magnitude is the reconstruction, the zero class included. -/
theorem decMagnitude_eq {exp15 : BitVec 15} (h : exp15 ≠ 0x7FFF#15) (hi lo : Word32) :
    decMagnitude exp15 hi lo = reconstruct exp15 hi lo := by
  rcases decMagnitude_cases exp15 hi lo with ⟨rfl, rfl, rfl, e⟩ | ⟨h', -⟩ | ⟨-, e⟩
  · rw [e, reconstruct_eq, rne64_of_sig_zero rfl, rne64_of_sig_zero rfl]
    decide
  · exact absurd h' h
  · exact e

theorem decMagnitude_inf (hi lo : Word32) : decMagnitude 0x7FFF#15 hi lo = plusInf := by
  rcases decMagnitude_cases 0x7FFF#15 hi lo with ⟨h, -⟩ | ⟨-, e⟩ | ⟨h, -⟩
  · exact absurd h (by decide)
  · exact e
  · exact absurd rfl h

theorem decMagnitude_sign_not_nan (exp15 : BitVec 15) (hi lo : Word32) :
    binSign (decMagnitude exp15 hi lo) = 0#1 ∧ isNaN (decMagnitude exp15 hi lo) = false := by
  rcases decMagnitude_cases exp15 hi lo with ⟨-, -, -, e⟩ | ⟨-, e⟩ | ⟨-, e⟩ <;> rw [e]
  · decide
  · decide
  · exact binAdd_sign_not_nan _ _

@[simp] theorem isNaN_binNeg (u : Bin64) : isNaN (binNeg u) = isNaN u := by simp [isNaN]

@[simp] theorem isInf_binNeg (u : Bin64) : isInf (binNeg u) = isInf u := by simp [isInf]

/-- The sign of the result is the sign bit of the sequence, and its class and magnitude are those before the sign (R113). -/
theorem decBits_spec (v : Ext80) :
    binSign (decBits v) = extSign v ∧
    binExp (decBits v) = binExp (decMagnitude (extExp v) (extHi v) (extLo v)) ∧
    binFrac (decBits v) = binFrac (decMagnitude (extExp v) (extHi v) (extLo v)) := by
  have hs := (decMagnitude_sign_not_nan (extExp v) (extHi v) (extLo v)).1
  unfold decBits
  rcases one_bit (extSign v) with h | h
  · simp [h, hs]
  · simp [h, hs]

/-- A small enough number rounds to +0.0. -/
theorem rne64_of_small {r : Exact} (h : r.value ≤ (2 : ℚ) ^ (-1075 : ℤ)) : rne64 r = plusZero := by
  rcases r.value_nonneg.eq_or_lt with z | pos
  · exact rne64_of_sig_zero ((r.value_eq_zero_iff).1 z.symm)
  · obtain ⟨k, q, -, h2, -, h4, -, h6, h7, h8⟩ := rne64_cases pos
    obtain rfl : q = -1074 := by
      rcases h4 with h4 | h4
      · exact h4
      · have := (zpow_le_zpow_iff_right₀ (by norm_num : (1 : ℚ) < 2)).1 (h4.trans h)
        omega
    have hv : r.value * (2 : ℚ) ^ (-(-1074 : ℤ)) ≤ 1 / 2 := by
      refine (mul_le_mul_of_nonneg_right h (two_zpow_pos _).le).trans ?_
      rw [← zpow_add₀ (by norm_num)]
      norm_num
    have hv0 : 0 < r.value * (2 : ℚ) ^ (-(-1074 : ℤ)) := mul_pos pos (two_zpow_pos _)
    generalize r.value * (2 : ℚ) ^ (-(-1074 : ℤ)) = n at h6 h7 hv hv0
    have hk : k = 0 := by
      rcases Nat.lt_or_ge k 2 with hk | hk
      · interval_cases k
        · rfl
        · rw [Nat.cast_one, abs_of_nonneg (by linarith)] at h6 h7
          have := h7 (by linarith)
          omega
      · have : (2 : ℚ) ≤ k := by exact_mod_cast hk
        rw [abs_of_nonneg (by linarith)] at h6
        linarith
    subst hk
    rw [h8, if_neg (by rw [Nat.cast_zero, zero_mul]; exact not_le.2 (two_zpow_pos _))]
    decide

theorem isInf_rne64_iff (r : Exact) : isInf (rne64 r) = true ↔ overflowThreshold ≤ r.value := by
  rw [← rne64_eq_inf_iff]
  constructor
  · intro h
    obtain ⟨he, hf⟩ := (isInf_iff _).1 h
    exact bin_ext ((rne64_sign_not_nan r).1.trans (by decide)) (he.trans (by decide)) (hf.trans (by decide))
  · intro h
    rw [h]
    decide

/-- The magnitude of R72 is the sum of the two terms of R112 before rounding. -/
theorem extMagnitude_value (v : Ext80) :
    (extMagnitude v).value =
      (extHi v).toNat * (2 : ℚ) ^ ((extExp v).toNat - 16383 - 31 : ℤ) +
        (extLo v).toNat * (2 : ℚ) ^ ((extExp v).toNat - 16383 - 63 : ℤ) := by
  rw [extMagnitude, Exact.value, extMant_eq,
    show ((extExp v).toNat - 16383 - 31 : ℤ) = ((extExp v).toNat - 16446 : ℤ) + 32 by ring,
    show ((extExp v).toNat - 16383 - 63 : ℤ) = ((extExp v).toNat - 16446 : ℤ) by ring, zpow_add₀ (by norm_num) _ (32 : ℤ)]
  norm_cast
  push_cast
  ring

/-- A word times a power of two that binary64 can hold: +inf at or above `2^1024`, exact below it. -/
theorem rne64_word (w : Word32) {k : ℤ} (hk : -1074 ≤ k) :
    ((2 : ℚ) ^ (1024 : ℤ) ≤ w.toNat * (2 : ℚ) ^ k ∧ rne64 ⟨w.toNat, k⟩ = plusInf) ∨
    (isInf (rne64 ⟨w.toNat, k⟩) = false ∧ binMag (rne64 ⟨w.toNat, k⟩) = w.toNat * (2 : ℚ) ^ k) := by
  have hw := w.isLt
  rcases le_or_gt ((2 : ℚ) ^ (1024 : ℤ)) (w.toNat * (2 : ℚ) ^ k) with h | h
  · exact .inl ⟨h, (rne64_eq_inf_iff _).2 (overflowThreshold_le h)⟩
  · obtain ⟨a, -, c⟩ := rne64_of_grid (r := ⟨w.toNat, k⟩) (k := w.toNat) (q := k) rfl (by omega) hk h
    exact .inr ⟨isInf_of_isFinite a, c⟩

end Sys2Proof.Machine
end

