-- ==== Sys2Proof/Laws/PerInstr.lean ====
section
/-! SUPPORT. The statement made for every command, one lemma per constructor (LAWS.json). -/
namespace Sys2Proof.Laws

/-- The command is well formed, its word is not reserved, and the word is an instance of a row of the opcode table. -/
def Admitted.Statement (i : Instr) : Prop :=
  i.wf = true ∧ cmdAdmitted (encode i) = true ∧ ∃ row ∈ opcodeTable, row.covers (encode i) = true

theorem Admitted.enc : Admitted.Statement .enc :=
  ⟨rfl, by decide, ⟨"ENC", 0x0001#16, 0xFFFF#16⟩, by simp [opcodeTable], by decide⟩

theorem Admitted.dec (len : Byte) : Admitted.Statement (.dec len) := by
  refine ⟨rfl, (cmdAdmitted_iff _).2 (.inr (cmdOpc_append len _)), ⟨"DEC", 0x0002#16, 0x00FF#16⟩, by simp [opcodeTable], ?_⟩
  have h := cmdOpc_append len 0x02#8
  rw [← BitVec.toNat_inj, cmdOpc_toNat] at h
  simp only [OpcodeRow.covers, encode, beq_iff_eq]
  apply BitVec.eq_of_toNat_eq
  rw [BitVec.toNat_and]
  exact (Nat.and_two_pow_sub_one_eq_mod _ 8).trans h

end Sys2Proof.Laws
end

