-- ==== Sys2Proof/Laws/State.lean ====
section
/-! SUPPORT. One lemma per field per update of State, so that no later proof unfolds a record update. -/
namespace Sys2Proof.Machine

@[simp] theorem State.present_req (s : State) (r : Request) (rest : List Request) : (s.present r rest).req = r := rfl
@[simp] theorem State.present_rsp (s : State) (r : Request) (rest : List Request) : (s.present r rest).rsp = s.rsp := rfl
@[simp] theorem State.present_pending (s : State) (r : Request) (rest : List Request) :
    (s.present r rest).pending = rest := rfl
@[simp] theorem State.present_results (s : State) (r : Request) (rest : List Request) :
    (s.present r rest).results = s.results := rfl
@[simp] theorem State.present_draws (s : State) (r : Request) (rest : List Request) :
    (s.present r rest).draws = s.draws := rfl

@[simp] theorem State.respond_req (s : State) (a : Answer) : (s.respond a).req = s.req := rfl
@[simp] theorem State.respond_rsp (s : State) (a : Answer) : (s.respond a).rsp = a.drive s.draws := rfl
@[simp] theorem State.respond_pending (s : State) (a : Answer) : (s.respond a).pending = s.pending := rfl
@[simp] theorem State.respond_results (s : State) (a : Answer) : (s.respond a).results = s.results ++ [a] := rfl
@[simp] theorem State.respond_draws (s : State) (a : Answer) : (s.respond a).draws = s.draws + 1 := rfl

@[simp] theorem State.raiseInvalidLength_eq (s : State) : s.raiseInvalidLength = s.respond .invalidLength := rfl

@[simp] theorem Answer.drive_encOk (n : Nat) (re : Ext80) :
    (Answer.encOk re).drive n = { status := 0#2, re := re, rx := Config.freeRx n } := rfl
@[simp] theorem Answer.drive_decOk (n : Nat) (rx : Bin64) :
    (Answer.decOk rx).drive n = { status := 0#2, re := Config.freeRe n, rx := rx } := rfl
@[simp] theorem Answer.drive_invalidLength (n : Nat) :
    Answer.invalidLength.drive n = { status := 1#2, re := Config.freeRe n, rx := Config.freeRx n } := rfl

/-- The port shows the response that is driven onto it, whatever the draw. -/
theorem Answer.shownBy_drive (a : Answer) (n : Nat) : a.ShownBy (a.drive n) := by
  cases a <;> simp [Answer.ShownBy]

@[simp] theorem State.reset_pending : State.reset.pending = [] := rfl
@[simp] theorem State.reset_results : State.reset.results = [] := rfl

theorem State.withFetchWord_nil {s : State} (h : s.pending = []) (nbits w : Nat) :
    s.withFetchWord nbits w = { s with pending := [{ s.req with cmd := BitVec.ofNat 16 (w % 2 ^ nbits) }] } := by
  simp [State.withFetchWord, h]

theorem State.withFetchWord_cons {s : State} {r : Request} {rest : List Request} (h : s.pending = r :: rest)
    (nbits w : Nat) :
    s.withFetchWord nbits w = { s with pending := { r with cmd := BitVec.ofNat 16 (w % 2 ^ nbits) } :: rest } := by
  simp [State.withFetchWord, h]

end Sys2Proof.Machine
end

