-- ==== Sys2Proof/Laws/Transactions.lean ====
section
/-! SUPPORT. What `exec` and `step` can do, said once: a command ends its transaction with one response; a step presents the
next request and executes it, or is refused. -/
namespace Sys2Proof.Machine

/-- The response of a command in a state. -/
def answerOf : Instr → State → Answer
  | .enc, s => .encOk (encBits (Config.freeFrexpExp s.draws) s.req.x)
  | .dec len, s => if len = 10#8 then .decOk (decBits s.req.e) else .invalidLength

@[simp] theorem answerOf_enc (s : State) :
    answerOf .enc s = .encOk (encBits (Config.freeFrexpExp s.draws) s.req.x) := rfl

@[simp] theorem answerOf_dec_ten (s : State) : answerOf (.dec 10#8) s = .decOk (decBits s.req.e) := rfl

theorem answerOf_dec_other {len : Byte} (h : len ≠ 10#8) (s : State) : answerOf (.dec len) s = .invalidLength := if_neg h

/-- Every command, in every state, ends with its one response. -/
theorem exec_eq (i : Instr) (s : State) : exec i s = .next (s.respond (answerOf i s)) := by
  cases i with
  | enc => rfl
  | dec len =>
    simp only [exec, execDec, answerOf, State.raiseInvalidLength_eq]
    split <;> rfl

theorem exec_ne_fault (i : Instr) (s : State) (f : Fault) : exec i s ≠ .fault f := by cases f

/-- The three things a step can do. -/
theorem step_cases (s : State) :
    (s.pending = [] ∧ step s = .refused .noRequest) ∨
    (∃ r rest why, s.pending = r :: rest ∧ decodeCmd r.cmd = .rejected why ∧ step s = .refused (.reservedCommand why)) ∨
    (∃ r rest i, s.pending = r :: rest ∧ decodeCmd r.cmd = .instr i ∧
      step s = .next ((s.present r rest).respond (answerOf i (s.present r rest)))) := by
  unfold step
  split
  · next h => exact .inl ⟨h, rfl⟩
  · next r rest h =>
    split
    · next i hd => exact .inr (.inr ⟨r, rest, i, h, hd, exec_eq ..⟩)
    · next why hd => exact .inr (.inl ⟨r, rest, why, h, hd, rfl⟩)

/-- A step that answers presents the next request, executes its command, and adds the one response. -/
theorem step_next {s t : State} (h : step s = .next t) :
    ∃ r rest i, s.pending = r :: rest ∧ decodeCmd r.cmd = .instr i ∧
      t = (s.present r rest).respond (answerOf i (s.present r rest)) := by
  rcases step_cases s with ⟨-, e⟩ | ⟨_, _, _, -, -, e⟩ | ⟨r, rest, i, hp, hd, e⟩
  · cases e.symm.trans h
  · cases e.symm.trans h
  · exact ⟨r, rest, i, hp, hd, (Host.Outcome.next.inj (e.symm.trans h)).symm⟩

theorem step_of_decoded {s : State} {r : Request} {rest : List Request} {i : Instr} (hp : s.pending = r :: rest)
    (hd : decodeCmd r.cmd = .instr i) : step s = exec i (s.present r rest) := by
  unfold step
  rw [hp]
  simp only [hd]

theorem step_of_rejected {s : State} {r : Request} {rest : List Request} {why : CmdReject} (hp : s.pending = r :: rest)
    (hd : decodeCmd r.cmd = .rejected why) : step s = .refused (.reservedCommand why) := by
  unfold step
  rw [hp]
  simp only [hd]

theorem step_of_none {s : State} (hp : s.pending = []) : step s = .refused .noRequest := by
  unfold step
  rw [hp]

end Sys2Proof.Machine
end

