-- ==== Sys2Proof/Tests/Slice0.lean ====
section
/-! SUPPORT. The model's own tests. Expected values come from `95_test_vectors.md` and from words written out by
`30_encoding.md` R60 to R64; the witnesses show that the hypotheses of each statement can be met, at the ends of their
ranges. -/
namespace Sys2Proof.Tests
open Sys2Proof.Machine

/-! ### A small state, and what an outcome shows -/

/-- Reset with operands on the request port. -/
def onPort (x : Bin64) (e : Ext80) : State := { State.reset with req := { cmd := 0#16, x := x, e := e } }

/-- Reset with one request pending. -/
def withRequest (cmd : CmdWord) (x : Bin64) (e : Ext80) : State :=
  { State.reset with pending := [{ cmd := cmd, x := x, e := e }] }

/-- The responses of a next state; none for a refusal. -/
def resultsOf : Host.Outcome State Fault Refusal → Option (List Answer)
  | .next t => some t.results
  | .fault _ => none
  | .refused _ => none

/-- The reason of a refusal. -/
def refusalOf : Host.Outcome State Fault Refusal → Option Refusal
  | .next _ => none
  | .fault _ => none
  | .refused r => some r

/-- What ENC answers for `x`. -/
def encGives (x : Bin64) : Option (List Answer) := resultsOf (exec .enc (onPort x 0#80))

/-- What DEC answers for `LEN` and `e`. -/
def decGives (len : Byte) (e : Ext80) : Option (List Answer) := resultsOf (exec (.dec len) (onPort 0#64 e))

/-! ### Well-formedness, decoding and encoding -/

/-- R64: each check refuses a reserved word, and the words beside it pass. -/
theorem test_reserved_words_not_admitted :
    cmdAdmitted 0x0A01#16 = false ∧ cmdAdmitted 0x0000#16 = false ∧ cmdAdmitted 0x0003#16 = false ∧
      cmdAdmitted 0x00FF#16 = false ∧ cmdAdmitted 0x0001#16 = true ∧ cmdAdmitted 0xFF02#16 = true := by decide

/-- The only ENC word, bit by bit: LEN 00000000, OPC 00000001 (R60, R63). -/
theorem test_decode_enc_word : decodeCmd 0b0000000000000001#16 = .instr .enc := by decide

/-- A DEC word bit by bit: LEN 00001010, OPC 00000010 (R60, R62). -/
theorem test_decode_dec_word : decodeCmd 0b0000101000000010#16 = .instr (.dec 10#8) := by decide

theorem test_decode_rejects :
    decodeCmd 0x0A01#16 = .rejected (.encLengthNotZero 10#8) ∧ decodeCmd 0x0003#16 = .rejected (.reservedOpcode 3#8) := by
  decide

theorem test_encode_words : encode .enc = 0x0001#16 ∧ encode (.dec 9#8) = 0x0902#16 := by decide

theorem test_decodeTableWord :
    decodeTableWord 16 0x0001 = some .enc ∧ decodeTableWord 16 0x0002 = some (.dec 0#8) ∧
      decodeTableWord 8 0x0002 = some (.dec 0#8) ∧ decodeTableWord 16 0x0A01 = none := by decide

/-- No word is an instance of both rows of the opcode table. -/
theorem test_rows_do_not_overlap :
    opcodeTable.Pairwise fun a b => (a.pat ^^^ b.pat) &&& (a.mask &&& b.mask) ≠ 0#16 := by decide

/-- A placed word is run as the first command after reset. -/
theorem test_placed_words_run_after_reset :
    resultsOf (step (State.reset.withFetchWord 16 0x0001)) = some [.encOk 0#80] ∧
      resultsOf (step (State.reset.withFetchWord 16 0x0002)) = some [.invalidLength] := by decide

/-! ### ENC (`95_test_vectors.md` section 2) -/

theorem test_enc_numbers :
    encGives 0xBFF0000000000000#64 = some [.encOk 0xBFFF8000000000000000#80] ∧
      encGives 0x3FB999999999999A#64 = some [.encOk 0x3FFBCCCCCCCCCCCCD000#80] ∧
      encGives 0x7FEFFFFFFFFFFFFF#64 = some [.encOk 0x43FEFFFFFFFFFFFFF800#80] ∧
      encGives 0x000FFFFFFFFFFFFF#64 = some [.encOk 0x3C00FFFFFFFFFFFFF000#80] ∧
      encGives 0x8000000000000001#64 = some [.encOk 0xBBCD8000000000000000#80] := by decide +kernel

theorem test_enc_special_values :
    encGives 0x8000000000000000#64 = some [.encOk 0#80] ∧
      encGives 0xFFF0000000000000#64 = some [.encOk 0xFFFF0000000000000000#80] ∧
      encGives 0xFFF8000000000000#64 = some [.encOk 0x7FFF0000000000000000#80] ∧
      encGives 0x7FF0000000000001#64 = some [.encOk 0x7FFF0000000000000000#80] := by decide +kernel

/-! ### DEC (`95_test_vectors.md` section 3) -/

theorem test_dec_rounding :
    decGives 10#8 0x3FFF8000000000000400#80 = some [.decOk 0x3FF0000000000000#64] ∧
      decGives 10#8 0x3FFF8000000000000C00#80 = some [.decOk 0x3FF0000000000002#64] ∧
      decGives 10#8 0x3FFF8000000000000401#80 = some [.decOk 0x3FF0000000000001#64] ∧
      decGives 10#8 0x43FEFFFFFFFFFFFFFC00#80 = some [.decOk 0x7FF0000000000000#64] ∧
      decGives 10#8 0x43FEFFFFFFFFFFFFFBFF#80 = some [.decOk 0x7FEFFFFFFFFFFFFF#64] ∧
      decGives 10#8 0x3BCC8000000000000001#80 = some [.decOk 0x0000000000000000#64] ∧
      decGives 10#8 0x3BCCC000000000000000#80 = some [.decOk 0x0000000000000001#64] ∧
      decGives 10#8 0x80000000000000000001#80 = some [.decOk 0x8000000000000000#64] := by decide +kernel

/-- Infinity with a mantissa, an unnormalised mantissa, `loMant` alone, and the length guard. -/
theorem test_dec_classes_and_guard :
    decGives 10#8 0xFFFFC000000000000000#80 = some [.decOk 0xFFF0000000000000#64] ∧
      decGives 10#8 0x3FFF4000000000000000#80 = some [.decOk 0x3FE0000000000000#64] ∧
      decGives 10#8 0x3FFF0000000000000001#80 = some [.decOk 0x3C00000000000000#64] ∧
      decGives 9#8 0x3FFF8000000000000000#80 = some [.invalidLength] ∧
      decGives 11#8 0x3FFF8000000000000000#80 = some [.invalidLength] := by decide +kernel

/-! ### Witnesses for the hypotheses of the statements -/

/-- EncodeDecodeAgree: a well-formed command of each row, a word that decodes, a row. -/
theorem witness_encode_decode :
    Instr.enc.wf = true ∧ (Instr.dec 255#8).wf = true ∧ decodeCmd 0xFF02#16 = .instr (.dec 255#8) ∧
      (⟨"ENC", 0x0001#16, 0xFFFF#16⟩ : OpcodeRow) ∈ opcodeTable ∧
      (⟨"DEC", 0x0002#16, 0x00FF#16⟩ : OpcodeRow) ∈ opcodeTable := by decide

/-- StepRunsDecodedCommand, StepMeansBlockMeaning (an answer), FirstRequestAfterResetLikeAnyOther. -/
theorem witness_admitted_request :
    (withRequest 0x0A02#16 0#64 0#80).pending = [⟨0x0A02#16, 0#64, 0#80⟩] ∧ decodeCmd 0x0A02#16 = .instr (.dec 10#8) ∧
      cmdAdmitted 0x0A02#16 = true ∧ blockMeaning ⟨0x0002#16, 0#64, 0#80⟩ = some .invalidLength := by decide

/-- StepRefusesReservedWords (both reasons) and StepMeansBlockMeaning (none); StepAnswersExactlyAdmittedRequests (none
pending). -/
theorem witness_refusals :
    refusalOf (step (withRequest 0x0101#16 0#64 0#80)) = some (.reservedCommand (.encLengthNotZero 1#8)) ∧
      refusalOf (step (withRequest 0x0A03#16 0#64 0#80)) = some (.reservedCommand (.reservedOpcode 3#8)) ∧
      blockMeaning ⟨0x0A03#16, 0#64, 0#80⟩ = none ∧ State.reset.pending = [] ∧
      refusalOf (step State.reset) = some .noRequest := by decide

/-- PlacedWordRunsNext: with a request pending and with none. -/
theorem witness_placed_word :
    (withRequest 0#16 1#64 2#80).pending = [⟨0#16, 1#64, 2#80⟩] ∧
      (withRequest 0#16 1#64 2#80).withFetchWord 16 0x0A02 = withRequest 0x0A02#16 1#64 2#80 := ⟨rfl, rfl⟩

/-- ResponseDependsOnReadFieldsOnly: ENC, DEC with LEN = 10 and DEC with another LEN, with different unread fields. -/
theorem witness_unread_fields :
    (cmdAdmitted 0x0001#16 = true ∧ cmdAdmitted 0x0A02#16 = true ∧ cmdAdmitted 0x0902#16 = true) ∧
      resultsOf (step (withRequest 0x0001#16 5#64 1#80)) = resultsOf (step (withRequest 0x0001#16 5#64 2#80)) ∧
      resultsOf (step (withRequest 0x0A02#16 5#64 1#80)) = resultsOf (step (withRequest 0x0A02#16 6#64 1#80)) ∧
      resultsOf (step (withRequest 0x0902#16 5#64 1#80)) = resultsOf (step (withRequest 0x0902#16 6#64 2#80)) := by
  decide +kernel

/-- RunAnswersEveryRequestInOrder and RepeatedRequestGetsSameResponse: a state with one admitted request twice. -/
theorem witness_two_requests :
    ∀ r ∈ ({ State.reset with pending := [⟨0x0902#16, 0#64, 0#80⟩, ⟨0x0902#16, 0#64, 0#80⟩] } : State).pending,
      cmdAdmitted r.cmd = true := by decide

/-- StepKeepsResponsesLegal: a good state, not the reset one, with a next state. -/
theorem witness_good_state :
    ∃ s t : State, s.results = [.decOk 0x3FF0000000000000#64] ∧ s.Inv ∧ step s = .next t := by
  let s : State := { withRequest 0x0001#16 0#64 0#80 with
    rsp := { status := 0#2, re := 0#80, rx := 0x3FF0000000000000#64 }
    results := [.decOk 0x3FF0000000000000#64] }
  refine ⟨s, _, rfl, ⟨?_, ?_⟩, (step_of_decoded (i := .enc) rfl (by decide)).trans (exec_eq ..)⟩
  · intro a ha
    obtain rfl := List.mem_singleton.1 ha
    show isNaN _ = false
    decide
  · intro a ha
    obtain rfl : Answer.decOk 0x3FF0000000000000#64 = a := Option.some.inj ha
    exact ⟨rfl, rfl⟩

/-- NonFiniteEncodesToInfinity, EncSignFidelity: the infinities and a NaN of each sign are not finite; the numbers at the ends
of the finite range are finite and nonzero, and the zeros are zero. -/
theorem witness_input_classes :
    isInf 0x7FF0000000000000#64 = true ∧ isFinite 0x7FF0000000000000#64 = false ∧
      isInf 0xFFF0000000000000#64 = true ∧ isFinite 0xFFF0000000000000#64 = false ∧
      isNaN 0x7FF0000000000001#64 = true ∧ isFinite 0x7FF0000000000001#64 = false ∧
      isNaN 0xFFFFFFFFFFFFFFFF#64 = true ∧ isFinite 0xFFFFFFFFFFFFFFFF#64 = false ∧
      isFinite 0x0000000000000001#64 = true ∧ isZero 0x0000000000000001#64 = false ∧ eq0 0x0000000000000001#64 = false ∧
      isFinite 0x800FFFFFFFFFFFFF#64 = true ∧ isZero 0x800FFFFFFFFFFFFF#64 = false ∧ eq0 0x800FFFFFFFFFFFFF#64 = false ∧
      isFinite 0x0010000000000000#64 = true ∧ isZero 0x0010000000000000#64 = false ∧ eq0 0x0010000000000000#64 = false ∧
      isFinite 0xFFEFFFFFFFFFFFFF#64 = true ∧ isZero 0xFFEFFFFFFFFFFFFF#64 = false ∧ eq0 0xFFEFFFFFFFFFFFFF#64 = false ∧
      isZero 0x0000000000000000#64 = true ∧ isZero 0x8000000000000000#64 = true := by decide +kernel

/-- NormalizerBitForms and EncReachableRanges: the ends of the normal and of the subnormal range. -/
theorem witness_normal_and_subnormal :
    binExp 0x0010000000000000#64 = 1#11 ∧ binExp 0x7FEFFFFFFFFFFFFF#64 = 0x7FE#11 ∧
      binExp 0x0000000000000001#64 = 0#11 ∧ binFrac 0x000FFFFFFFFFFFFF#64 = 0xFFFFFFFFFFFFF#52 := by decide

/-- EncReachableRanges, second clause: the detector fires on an infinity. -/
theorem witness_detector_fires (eAny : Int) : detects (frexp eAny (val (signExtract 0xFFF0000000000000#64).2)).1
    (frexp eAny (val (signExtract 0xFFF0000000000000#64).2)).2 = true := by
  rw [val_signExtract_of_isInf (by decide)]
  rfl

/-- SignFlagExactlyBelowZero: a value of each kind, on each side of zero. -/
theorem witness_signs :
    lt0 0xBFF0000000000000#64 = true ∧ lt0 0x8000000000000000#64 = false ∧ val 0xFFF0000000000000#64 = .inf true ∧
      val 0x7FF8000000000000#64 = .nan ∧ val 0xBFF0000000000000#64 = .fin true ⟨4503599627370496, -52⟩ := by decide

/-- FrexpIsUniqueNormalization, SplitterFloors, DetectorFiresExactlyOnNonFinite, ExponentScalerRule: one half is a positive
value below 1 and not below 1/2; the exponents at the ends of both clauses, and one that leaves an all-zero mantissa. -/
theorem witness_mantissa_and_exponents :
    0 < (⟨1, -1⟩ : Exact).value ∧ (⟨1, -1⟩ : Exact).value < 1 ∧ 1 / 2 ≤ (⟨1, -1⟩ : Exact).value ∧
      ((16384 : ℤ) ≤ 16384 ∧ 0 ≤ (16384 : ℤ) + 16382) ∧ 0 ≤ (-16382 : ℤ) + 16382 ∧ (-16383 : ℤ) + 16382 < 0 ∧
      (⟨1, -1⟩ : Exact).value * (2 : ℚ) ^ (-16447 : ℤ) < (2 : ℚ) ^ (-16446 : ℤ) := by
  have h : (⟨1, -1⟩ : Exact).value = 1 / 2 := by simp [Exact.value]
  refine ⟨by rw [h]; norm_num, by rw [h]; norm_num, by rw [h], by norm_num, by norm_num, by norm_num, ?_⟩
  have hp := two_zpow_pos (-16447)
  rw [h, show (-16446 : ℤ) = 1 + -16447 by norm_num, zpow_add₀ (by norm_num), zpow_one]
  generalize (2 : ℚ) ^ (-16447 : ℤ) = a at *
  linarith only [hp]

/-- EncReachableRanges, third clause, and EncOutputSetIsExact: ENC gives EXP15 = 0. -/
theorem witness_enc_exp_zero : extExp (encBits 0 0x8000000000000000#64) = 0#15 := by decide

/-- DecLengthGuard and DecCompletesWithClosedForm: LEN at the ends of its range and on both sides of 10. -/
theorem witness_lengths : ∀ len ∈ [0#8, 9#8, 11#8, 255#8], len ≠ 10#8 := by decide

/-- SingleRoundingInUpperRange, DecOverflowThreshold, DecLowRange, DecZeroAndInfinityClasses: sequences with EXP15 at the ends
of each range. -/
theorem witness_exponent_ranges :
    0x3C0C ≤ (extExp 0x3C0C8000000000000000#80).toNat ∧ (extExp 0x3C0C8000000000000000#80).toNat ≤ 0x7FFE ∧
      0x3C0C ≤ (extExp 0x7FFE8000000000000000#80).toNat ∧ (extExp 0x7FFE8000000000000000#80).toNat ≤ 0x7FFE ∧
      (extExp 0x00008000000000000000#80).toNat ≤ 0x3BCB ∧
      (extExp 0xBBCBFFFFFFFFFFFFFFFF#80).toNat ≤ 0x3BCB ∧
      0x3BCC ≤ (extExp 0x3BCC8000000000000001#80).toNat ∧ (extExp 0x3BCC8000000000000001#80).toNat ≤ 0x3C0B ∧
      0x3BCC ≤ (extExp 0x3C0B8000000000000000#80).toNat ∧ (extExp 0x3C0B8000000000000000#80).toNat ≤ 0x3C0B ∧
      extExp 0xFFFFC000000000000000#80 = 0x7FFF#15 ∧
      extExp 0x3FFF0000000000000000#80 ≠ 0x7FFF#15 ∧ extMant 0x3FFF0000000000000000#80 = 0#64 := by decide +kernel

/-- RoundingIsNearestTiesToEven: a number at or above the threshold, one below it, and a finite pattern of sign 0. -/
theorem witness_rounding :
    overflowThreshold ≤ (⟨1, 1024⟩ : Exact).value ∧ (⟨1, 0⟩ : Exact).value < overflowThreshold ∧
      isFinite plusZero = true ∧ binSign plusZero = 0#1 := by
  refine ⟨overflowThreshold_le (by simp only [Exact.value, Nat.cast_one, one_mul]; exact le_rfl),
    lt_overflowThreshold (p := 0) (by norm_num) (by simp [Exact.value]), by decide, by decide⟩

end Sys2Proof.Tests
end

section
/-! PROOF. Why RNE64 is nearest (`00_scope.md` R15): counted in units of the weight of the last kept bit, the kept integer
is nearest to `r` among the integers, and a finite binary64 value of smaller weight lies below every number with that
weight. -/
namespace Sys2Proof.Machine

/-- A grid number counted in units of `2^q` is an integer, or it has a smaller weight and is below `2^52` units. -/
theorem OnGrid.units_cases {k : Nat} {p : ℤ} (h : OnGrid k p) (q : ℤ) :
    (∃ j : Nat, (k : ℚ) * (2 : ℚ) ^ (p - q) = j) ∨ (q ≠ -1074 ∧ (k : ℚ) * (2 : ℚ) ^ (p - q) < 2 ^ 52) := by
  rcases le_or_gt q p with hq | hq
  · left
    refine ⟨k * 2 ^ (p - q).toNat, ?_⟩
    conv_lhs => rw [← Int.toNat_of_nonneg (sub_nonneg.2 hq), zpow_natCast]
    push_cast
    rfl
  · right
    have hk : (k : ℚ) < 2 ^ 53 := by exact_mod_cast h.lt
    have hw : (2 : ℚ) ^ (p - q) ≤ 1 / 2 := (zpow_two_le (by omega : p - q ≤ -1)).trans (by norm_num)
    refine ⟨by have := h.le; omega, ?_⟩
    have : (k : ℚ) * (2 : ℚ) ^ (p - q) ≤ k * (1 / 2) := mul_le_mul_of_nonneg_left hw (Nat.cast_nonneg _)
    linarith only [this, hk]

/-- An integer within 1/2 of `n` is as near to `n` as any other integer, and another is as near only where both are 1/2
away. -/
theorem nearest_integer {k j : Nat} {n : ℚ} (h : |(k : ℚ) - n| ≤ 1 / 2) (hne : j ≠ k) :
    |(k : ℚ) - n| ≤ |(j : ℚ) - n| ∧ (|(k : ℚ) - n| = |(j : ℚ) - n| → |(k : ℚ) - n| = 1 / 2) := by
  have h1 : (1 : ℚ) ≤ |(j : ℚ) - k| := by
    have : (1 : ℤ) ≤ |(j : ℤ) - k| := Int.one_le_abs (sub_ne_zero.2 (by exact_mod_cast hne))
    exact_mod_cast this
  have h2 : |(j : ℚ) - k| ≤ |(j : ℚ) - n| + |(k : ℚ) - n| := by
    rw [abs_sub_comm (k : ℚ) n]
    exact abs_sub_le _ _ _
  exact ⟨by linarith only [h, h1, h2], fun e => by linarith only [h, h1, h2, e]⟩

/-- An integer within 1/2 of `n` is strictly nearer to `n` than a number below an integer `j` that is not above `n`. -/
theorem nearest_of_lt_integer {k j : Nat} {n x : ℚ} (h : |(k : ℚ) - n| ≤ 1 / 2) (hj : (j : ℚ) ≤ n) (hx : x < j) :
    |(k : ℚ) - n| < |x - n| := by
  have hkj : |(k : ℚ) - n| ≤ |(j : ℚ) - n| := by
    by_cases e : j = k
    · rw [e]
    · exact (nearest_integer h e).1
  rw [abs_of_nonpos (sub_nonpos.2 hj)] at hkj
  rw [abs_of_neg (a := x - n) (by linarith only [hj, hx])]
  linarith only [hkj, hx]

/-- The distance of `c * 2^p` and `v` is their distance counted in units of `2^q`, times `2^q`. -/
theorem abs_sub_in_units (c v : ℚ) (p q : ℤ) :
    |c * (2 : ℚ) ^ p - v| = |c * (2 : ℚ) ^ (p - q) - v * (2 : ℚ) ^ (-q)| * (2 : ℚ) ^ q := by
  have e : c * (2 : ℚ) ^ p - v = (c * (2 : ℚ) ^ (p - q) - v * (2 : ℚ) ^ (-q)) * (2 : ℚ) ^ q := by
    rw [sub_mul, mul_assoc, mul_assoc, ← zpow_add₀ (by norm_num), ← zpow_add₀ (by norm_num)]
    simp
  rw [e, abs_mul, abs_of_pos (two_zpow_pos q)]

/-- A multiple `k * 2^q` within half a unit of `v`, of a weight that keeps 53 bits of `v` or is the least, is as near to `v`
as any other grid number, and another one is as near only where `k` is half a unit away. -/
theorem OnGrid.nearest {k k' : Nat} {q q' : ℤ} {v : ℚ} (h : OnGrid k' q') (hk : |(k : ℚ) - v * (2 : ℚ) ^ (-q)| ≤ 1 / 2)
    (hv : q = -1074 ∨ (2 : ℚ) ^ (q + 52) ≤ v) (hne : (k' : ℚ) * (2 : ℚ) ^ q' ≠ k * (2 : ℚ) ^ q) :
    |(k : ℚ) * (2 : ℚ) ^ q - v| ≤ |(k' : ℚ) * (2 : ℚ) ^ q' - v| ∧
      (|(k : ℚ) * (2 : ℚ) ^ q - v| = |(k' : ℚ) * (2 : ℚ) ^ q' - v| → |(k : ℚ) - v * (2 : ℚ) ^ (-q)| = 1 / 2) := by
  have hq := two_zpow_pos q
  rw [abs_sub_in_units k v q q, abs_sub_in_units k' v q' q, sub_self, zpow_zero, mul_one,
    mul_le_mul_iff_left₀ hq, mul_left_inj' hq.ne']
  rcases h.units_cases q with ⟨j, hj⟩ | ⟨hn, hlt⟩
  · rw [hj]
    refine nearest_integer hk fun e => hne ?_
    rw [← e, ← hj, mul_assoc, ← zpow_add₀ (by norm_num), sub_add_cancel]
  · have hge : ((2 ^ 52 : ℕ) : ℚ) ≤ v * (2 : ℚ) ^ (-q) := by
      rw [zpow_neg, ← div_eq_mul_inv, le_div_iff₀ hq]
      have := hv.resolve_left hn
      rw [add_comm, zpow_add₀ (by norm_num)] at this
      exact_mod_cast this
    have := nearest_of_lt_integer hk hge (by exact_mod_cast hlt)
    exact ⟨this.le, fun e => absurd e this.ne⟩

/-- Below the threshold RNE64 of a positive number is the finite pattern of the kept integer `k` at its weight `q`. -/
theorem rne64_below_threshold {r : Exact} (h : 0 < r.value) (hlt : r.value < overflowThreshold) :
    ∃ (k : Nat) (q : ℤ), (q = -1074 ∨ (2 : ℚ) ^ (q + 52) ≤ r.value) ∧ |(k : ℚ) - r.value * (2 : ℚ) ^ (-q)| ≤ 1 / 2 ∧
      (|(k : ℚ) - r.value * (2 : ℚ) ^ (-q)| = 1 / 2 → k % 2 = 0) ∧
      isFinite (rne64 r) = true ∧ binMag (rne64 r) = k * (2 : ℚ) ^ q ∧ (rne64 r).toNat % 2 = k % 2 := by
  obtain ⟨k, q, hk, hq, hn, hge, -, hnear, htie, hr⟩ := rne64_cases h
  have hfin : (k : ℚ) * (2 : ℚ) ^ q < (2 : ℚ) ^ (1024 : ℤ) := by
    by_contra hc
    rw [if_pos (not_lt.1 hc), rne64_eq_inf_iff] at hr
    exact absurd hlt (not_lt.2 hr)
  rw [if_neg (not_le.2 hfin)] at hr
  obtain ⟨-, hpf, hpm, hpb⟩ := binPack_spec hk hq hn hfin
  exact ⟨k, q, hge, hnear, htie, hr ▸ hpf, hr ▸ hpm, hr ▸ hpb⟩

theorem lastBit_eq_zero {u : Bin64} (h : u.toNat % 2 = 0) : u.extractLsb' 0 1 = 0#1 := by
  apply BitVec.eq_of_toNat_eq
  simpa [BitVec.extractLsb'_toNat] using h

/-- Below the threshold RNE64 is finite and as near as any finite pattern of sign 0; where another is as near, its last bit
is 0. -/
theorem rne64_nearest {r : Exact} (hlt : r.value < overflowThreshold) :
    isFinite (rne64 r) = true ∧ ∀ w : Bin64, isFinite w = true → binSign w = 0#1 →
      |binMag (rne64 r) - r.value| ≤ |binMag w - r.value| ∧
      (|binMag (rne64 r) - r.value| = |binMag w - r.value| → w ≠ rne64 r → (rne64 r).extractLsb' 0 1 = 0#1) := by
  rcases r.value_nonneg.eq_or_lt with hz | hpos
  · obtain ⟨hf, -, hm⟩ := plusZero_facts
    rw [rne64_of_sig_zero ((r.value_eq_zero_iff).1 hz.symm), ← hz, hm]
    exact ⟨hf, fun w _ _ => ⟨by simp, fun _ _ => by decide⟩⟩
  · obtain ⟨k, q, hge, hnear, htie, hf, hm, hbit⟩ := rne64_below_threshold hpos hlt
    refine ⟨hf, fun w hw hs => ?_⟩
    by_cases hwr : w = rne64 r
    · rw [hwr]
      exact ⟨le_rfl, fun _ hne => absurd rfl hne⟩
    · obtain ⟨k', q', hv, hg, -⟩ := val_finite hw
      have hne : binMag w ≠ binMag (rne64 r) := fun e =>
        hwr (binMag_injective hw hf (hs.trans (rne64_sign_not_nan r).1.symm) e)
      rw [binMag_of_val hv, hm] at hne
      rw [binMag_of_val hv, hm]
      obtain ⟨hle, heq⟩ := hg.nearest hnear hge hne
      exact ⟨hle, fun e _ => lastBit_eq_zero (hbit.trans (htie (heq e)))⟩

/-- Settles O35: RNE64's kept integer is the nearest multiple of its weight, and no finer binary64 value is nearer. -/
theorem roundingIsNearestTiesToEven : Obligations.RoundingIsNearestTiesToEven := by
  intro r
  refine ⟨fun h => ((rne64_eq_inf_iff r).2 h).trans (by decide), fun h => ?_⟩
  obtain ⟨hf, hnear⟩ := rne64_nearest h
  exact ⟨hf, (rne64_sign_not_nan r).1, hnear⟩

end Sys2Proof.Machine
end

section
/-! PROOF. Which steps are taken (`30_encoding.md` R64, `60_exceptions.md` R131). -/
namespace Sys2Proof.Machine

theorem step_ne_fault (s : State) (f : Fault) : step s ≠ .fault f := by cases f

/-- A step answers exactly when the next request has an admitted command word. -/
theorem step_answers_iff (s : State) :
    (∃ t, step s = .next t) ↔ ∃ r rest, s.pending = r :: rest ∧ cmdAdmitted r.cmd = true := by
  constructor
  · rintro ⟨t, ht⟩
    obtain ⟨r, rest, i, hp, hd, -⟩ := step_next ht
    exact ⟨r, rest, hp, (cmdAdmitted_iff_decodes _).2 ⟨i, hd⟩⟩
  · rintro ⟨r, rest, hp, ha⟩
    obtain ⟨i, hd⟩ := (cmdAdmitted_iff_decodes _).1 ha
    exact ⟨_, (step_of_decoded hp hd).trans (exec_eq ..)⟩

/-- Settles O7, from what a step can do and which words decode. -/
theorem stepAnswersExactlyAdmittedRequests : Obligations.StepAnswersExactlyAdmittedRequests :=
  fun s => ⟨step_answers_iff s, step_of_none, step_ne_fault s⟩

end Sys2Proof.Machine
end

section
/-! PROOF. The normalizer's pair is the only one, and ENC does not depend on the exponent it leaves open (`00_scope.md`
R14, U5). -/
namespace Sys2Proof.Machine

/-- `m * 2^e` with `m` in [0.5, 1) lies between `2^(e-1)` and `2^e`. -/
theorem normalized_bounds {v m : ℚ} {e : ℤ} (h1 : 1 / 2 ≤ m) (h2 : m < 1) (hv : v = m * (2 : ℚ) ^ e) :
    (2 : ℚ) ^ (e - 1) ≤ v ∧ v < (2 : ℚ) ^ (e - 1 + 1) := by
  have hp := two_zpow_pos e
  rw [hv, sub_add_cancel, zpow_sub_one₀ (by norm_num), mul_comm ((2 : ℚ) ^ e)]
  exact ⟨mul_le_mul_of_nonneg_right (by linarith only [h1]) hp.le, mul_lt_of_lt_one_left hp h2⟩

/-- A number has one normalization in [0.5, 1). -/
theorem normalized_unique {v m m' : ℚ} {e e' : ℤ} (h1 : 1 / 2 ≤ m) (h2 : m < 1) (hv : v = m * (2 : ℚ) ^ e)
    (h1' : 1 / 2 ≤ m') (h2' : m' < 1) (hv' : v = m' * (2 : ℚ) ^ e') : m' = m ∧ e' = e := by
  have he := two_zpow_unique (normalized_bounds h1' h2' hv') (normalized_bounds h1 h2 hv)
  obtain rfl : e' = e := by omega
  exact ⟨mul_right_cancel₀ (two_zpow_pos e').ne' (hv'.symm.trans hv), rfl⟩

/-- ENC gives one result whatever exponent `frexp` gives an infinity or a NaN: the number's class fixes it. -/
theorem encBits_eAny_irrelevant (eAny eAny' : ℤ) (u : Bin64) : encBits eAny u = encBits eAny' u := by
  rcases bin_classes u with hz | ⟨hf, hz⟩ | hi | hn
  · rw [encBits_of_isZero _ hz, encBits_of_isZero _ hz]
  · obtain ⟨k, q, hv, -⟩ := val_nonzero hf hz
    exact BitVec.eq_of_toNat_eq ((encBits_of_finite eAny hf hz hv).trans (encBits_of_finite eAny' hf hz hv).symm)
  · rw [encBits_of_isInf _ hi, encBits_of_isInf _ hi]
  · rw [encBits_of_isNaN _ hn, encBits_of_isNaN _ hn]

/-- Settles O23: the pair of `frexp_spec` is the only normalization. -/
theorem frexpIsUniqueNormalization : Obligations.FrexpIsUniqueNormalization := by
  intro eAny a ha
  obtain ⟨hfr, h1, h2, hv⟩ := frexp_spec eAny false ((a.value_pos_iff).1 ha).ne'
  exact ⟨⟨_, _, hfr, h1, h2, hv, fun _ _ h1' h2' hv' => normalized_unique h1 h2 hv h1' h2' hv'⟩, rfl, rfl,
    encBits_eAny_irrelevant eAny⟩

end Sys2Proof.Machine
end

section
/-! PROOF. ENC agrees with its closed form, the table of `40_encode.md` R97, row by row. -/
namespace Sys2Proof.Machine

/-- The sign of the table, the sign bit moved to bit 15. -/
theorem tableSign_toNat (u : Bin64) : ((binSign u).setWidth 16 <<< 15 : SignExp).toNat = (binSign u).toNat * 2 ^ 15 := by
  rcases one_bit (binSign u) with hs | hs <;> rw [hs] <;> rfl

theorem tableSign_cases (u : Bin64) :
    ((binSign u).setWidth 16 <<< 15 : SignExp) = 0x0000#16 ∨ ((binSign u).setWidth 16 <<< 15 : SignExp) = 0x8000#16 := by
  rcases one_bit (binSign u) with hs | hs <;> rw [hs]
  · exact .inl rfl
  · exact .inr rfl

/-- A row with the sign, an exponent `b` that fits and a mantissa, as a number. -/
theorem tableRow_toNat (u : Bin64) {b : Nat} (hb : b < 2 ^ 15) (m : Bin64) :
    (((binSign u).setWidth 16 <<< 15 ||| BitVec.ofNat 16 b : SignExp) ++ m).toNat =
      (binSign u).toNat * 2 ^ 79 + b * 2 ^ 64 + m.toNat := by
  rw [append_toNat, signMerge_toNat (tableSign_cases u) hb, tableSign_toNat]
  ring

theorem encTable_of_isZero {u : Bin64} (h : isZero u = true) : encTable u = 0#80 := by
  obtain ⟨he, hf⟩ := (isZero_iff u).1 h
  simp [encTable, he, hf]

theorem encTable_of_isNaN {u : Bin64} (h : isNaN u = true) : encTable u = 0x7FFF0000000000000000#80 := by
  obtain ⟨he, hf⟩ := (isNaN_iff u).1 h
  have hf' : (binFrac u).toNat ≠ 0 := fun e => hf (BitVec.eq_of_toNat_eq e)
  simp only [encTable, he, if_neg hf']
  rfl

theorem encTable_of_isInf {u : Bin64} (h : isInf u = true) :
    encTable u = if binSign u = 1#1 then 0xFFFF0000000000000000#80 else 0x7FFF0000000000000000#80 := by
  obtain ⟨he, hf⟩ := (isInf_iff u).1 h
  rcases one_bit (binSign u) with hs | hs <;> simp [encTable, he, hf, hs]

/-- The row of a subnormal `f * 2^-1074`, as a number. -/
theorem encTable_of_subnormal {u : Bin64} (he : binExp u = 0#11) (hf : (binFrac u).toNat ≠ 0) :
    (encTable u).toNat = (binSign u).toNat * 2 ^ 79 + (Nat.log2 (binFrac u).toNat + 15309) * 2 ^ 64 +
      (binFrac u).toNat * 2 ^ (63 - Nat.log2 (binFrac u).toNat) := by
  have hlt := (binFrac u).isLt
  have hlog : Nat.log2 (binFrac u).toNat < 52 := (Nat.log2_lt hf).2 hlt
  have hm : ((binFrac u).setWidth 64 <<< (63 - Nat.log2 (binFrac u).toNat)).toNat =
      (binFrac u).toNat * 2 ^ (63 - Nat.log2 (binFrac u).toNat) := by
    rw [BitVec.toNat_shiftLeft, BitVec.toNat_setWidth, Nat.mod_eq_of_lt (by omega : (binFrac u).toNat < 2 ^ 64),
      Nat.shiftLeft_eq, Nat.mod_eq_of_lt (encMantissa_bounds hf (by omega)).2]
  have hrow : encTable u = ((binSign u).setWidth 16 <<< 15 ||| BitVec.ofNat 16 (Nat.log2 (binFrac u).toNat + 15309)) ++
      ((binFrac u).setWidth 64 <<< (63 - Nat.log2 (binFrac u).toNat)) := by
    simp only [encTable, he, if_neg hf]
    rfl
  rw [hrow, tableRow_toNat u (by omega), hm]

/-- The row of a normal number, as a number: the leading 1 at bit 63 and the fraction below it. -/
theorem encTable_of_normal {u : Bin64} (h0 : binExp u ≠ 0#11) (h : binExp u ≠ 0x7FF#11) :
    (encTable u).toNat = (binSign u).toNat * 2 ^ 79 + ((binExp u).toNat + 15360) * 2 ^ 64 +
      (2 ^ 52 + (binFrac u).toNat) * 2 ^ 11 := by
  have h0' : (binExp u).toNat ≠ 0 := fun e => h0 (BitVec.eq_of_toNat_eq e)
  have h' : (binExp u).toNat ≠ 0x7FF := fun e => h (BitVec.eq_of_toNat_eq e)
  have hlt := (binFrac u).isLt
  have hlte := (binExp u).isLt
  have hm : (0x8000000000000000#64 ||| ((binFrac u).setWidth 64 <<< 11)).toNat = (2 ^ 52 + (binFrac u).toNat) * 2 ^ 11 := by
    have hor := Nat.two_pow_add_eq_or_of_lt (i := 63) (b := (binFrac u).toNat * 2 ^ 11) (by omega) 1
    rw [BitVec.toNat_or, BitVec.toNat_shiftLeft, BitVec.toNat_setWidth,
      Nat.mod_eq_of_lt (by omega : (binFrac u).toNat < 2 ^ 64), Nat.shiftLeft_eq,
      Nat.mod_eq_of_lt (by omega : (binFrac u).toNat * 2 ^ 11 < 2 ^ 64)]
    refine Eq.trans hor.symm ?_
    ring
  simp only [encTable, if_neg h0', if_neg h']
  rw [tableRow_toNat u (by omega), hm]

/-- ENC of a finite nonzero input is its row of the table: both are the same number. -/
theorem encBits_eq_encTable_of_finite (eAny : ℤ) {u : Bin64} (h : isFinite u = true) (hz : isZero u = false) :
    encBits eAny u = encTable u := by
  have hlt := (binFrac u).isLt
  apply BitVec.eq_of_toNat_eq
  by_cases he : binExp u = 0#11
  · have hf : (binFrac u).toNat ≠ 0 := fun e => by
      rw [(isZero_iff u).2 ⟨he, BitVec.eq_of_toNat_eq e⟩] at hz
      cases hz
    rw [encBits_of_finite eAny h hz (val_of_exp_zero he), encTable_of_subnormal he hf,
      show ((-1074 : ℤ) + Nat.log2 (binFrac u).toNat + 16383).toNat = Nat.log2 (binFrac u).toNat + 15309 by omega]
  · have hne := (isFinite_iff u).1 h
    have hlog : Nat.log2 (2 ^ 52 + (binFrac u).toNat) = 52 :=
      (Nat.log2_eq_iff (by omega)).2 ⟨by omega, by omega⟩
    rw [encBits_of_finite eAny h hz (val_of_normal he hne), encTable_of_normal he hne, hlog,
      show (((binExp u).toNat : ℤ) - 1075 + (52 : ℕ) + 16383).toNat = (binExp u).toNat + 15360 by omega]

/-- R97: the stages of ENC give the closed form, for every input and whatever exponent `frexp` leaves open. -/
theorem encBits_eq_encTable (eAny : ℤ) (u : Bin64) : encBits eAny u = encTable u := by
  rcases bin_classes u with hz | ⟨hf, hz⟩ | hi | hn
  · rw [encBits_of_isZero eAny hz, encTable_of_isZero hz]
  · exact encBits_eq_encTable_of_finite eAny hf hz
  · rw [encBits_of_isInf eAny hi, encTable_of_isInf hi]
  · rw [encBits_of_isNaN eAny hn, encTable_of_isNaN hn]

end Sys2Proof.Machine
end

section
/-! PROOF. DEC agrees with its closed form by range, the table of `41_decode.md` R124. -/
namespace Sys2Proof.Machine

/-- R114: from EXP15 = 0x3C0C on, each term is exact or +inf, so that the sum is rounded once. -/
theorem decMagnitude_of_upper {v : Ext80} (h : 0x3C0C ≤ (extExp v).toNat) (hne : extExp v ≠ 0x7FFF#15) :
    decMagnitude (extExp v) (extHi v) (extLo v) = rne64 (extMagnitude v) := by
  rw [decMagnitude_eq hne, reconstruct_eq]
  have hr := extMagnitude_value v
  have hhi0 := mul_nonneg (Nat.cast_nonneg (α := ℚ) (extHi v).toNat) (two_zpow_pos ((extExp v).toNat - 16383 - 31)).le
  have hlo0 := mul_nonneg (Nat.cast_nonneg (α := ℚ) (extLo v).toNat) (two_zpow_pos ((extExp v).toNat - 16383 - 63)).le
  rcases rne64_word (extHi v) (k := (extExp v).toNat - 16383 - 31) (by omega) with ⟨hge, hhi⟩ | ⟨hhi, hmhi⟩
  · rw [hhi, binAdd_of_isInf (.inl (by decide)), (rne64_eq_inf_iff _).2 (overflowThreshold_le (hr ▸ by linarith))]
  rcases rne64_word (extLo v) (k := (extExp v).toNat - 16383 - 63) (by omega) with ⟨hge, hlo⟩ | ⟨hlo, hmlo⟩
  · rw [hlo, binAdd_of_isInf (.inr (by decide)), (rne64_eq_inf_iff _).2 (overflowThreshold_le (hr ▸ by linarith))]
  · exact binAdd_eq hhi hlo (by rw [hr, hmhi, hmlo])

/-- A word times a power of two up to `2^-1107` rounds to +0.0. -/
theorem rne64_word_of_small (w : Word32) {k : ℤ} (hk : k ≤ -1107) : rne64 ⟨w.toNat, k⟩ = plusZero := by
  apply rne64_of_small
  have hw : (w.toNat : ℚ) ≤ (2 : ℚ) ^ (32 : ℤ) := by exact_mod_cast w.isLt.le
  calc (w.toNat : ℚ) * (2 : ℚ) ^ k ≤ (2 : ℚ) ^ (32 : ℤ) * (2 : ℚ) ^ k :=
        mul_le_mul_of_nonneg_right hw (two_zpow_pos k).le
    _ = (2 : ℚ) ^ (32 + k) := (zpow_add₀ (by norm_num) _ _).symm
    _ ≤ (2 : ℚ) ^ (-1075 : ℤ) := zpow_two_le (by omega)

/-- R116 (a): up to EXP15 = 0x3BCB both terms round to +0.0. -/
theorem decMagnitude_of_lower {v : Ext80} (h : (extExp v).toNat ≤ 0x3BCB) :
    decMagnitude (extExp v) (extHi v) (extLo v) = plusZero := by
  have hne : extExp v ≠ 0x7FFF#15 := fun e => by simp [e] at h
  rw [decMagnitude_eq hne, reconstruct_eq, rne64_word_of_small _ (by omega), rne64_word_of_small _ (by omega)]
  decide

/-- R124: the stages of DEC give the closed form, for every sequence. -/
theorem decBits_eq_decTable (v : Ext80) : decBits v = decTable v := by
  by_cases hinf : extExp v = 0x7FFF#15
  · simp [decBits, decTable, hinf, decMagnitude_inf]
  have hne : (extExp v).toNat ≠ 0x7FFF := fun e => hinf (BitVec.eq_of_toNat_eq e)
  by_cases hup : 0x3C0C ≤ (extExp v).toNat
  · simp only [decBits, decTable, if_neg hne, if_pos hup, decMagnitude_of_upper hup hinf]
  by_cases hmid : 0x3BCC ≤ (extExp v).toNat
  · simp only [decBits, decTable, if_neg hne, if_neg hup, if_pos hmid, decMagnitude_eq hinf, reconstruct_eq]
  · have hlow : (extExp v).toNat ≤ 0x3BCB := by omega
    simp only [decBits, decTable, if_neg hne, if_neg hup, if_neg hmid, decMagnitude_of_lower hlow]

end Sys2Proof.Machine
end

section
/-! PROOF. The step is the partial function of `10_state.md` R39: the meaning of a request is the response of the command
its word decodes to, and there is none where the word is reserved. -/
namespace Sys2Proof.Machine

theorem blockMeaning_of_enc {r : Request} (h : r.cmd = 0x0001#16) : blockMeaning r = some (.encOk (encTable r.x)) :=
  if_pos h

theorem blockMeaning_of_dec {r : Request} (h : cmdOpc r.cmd = 0x02#8) :
    blockMeaning r = if cmdLen r.cmd = 10#8 then some (.decOk (decTable r.e)) else some .invalidLength := by
  have henc : r.cmd ≠ 0x0001#16 := fun hc => by rw [hc] at h; exact absurd h (by decide)
  exact (if_neg henc).trans (if_pos h)

theorem blockMeaning_of_rejected {r : Request} {why : CmdReject} (hd : decodeCmd r.cmd = .rejected why) :
    blockMeaning r = none := by
  have henc : r.cmd ≠ 0x0001#16 := fun hc => by simp [hc, decodeCmd, cmdOpc, cmdLen] at hd
  have hdec : cmdOpc r.cmd ≠ 0x02#8 := fun hc => by simp [decodeCmd, hc] at hd
  exact (if_neg henc).trans (if_neg hdec)

/-- The meaning of a request whose word decodes is what its command answers with that request at the port. -/
theorem blockMeaning_of_decoded {i : Instr} {s : State} (hd : decodeCmd s.req.cmd = .instr i) :
    blockMeaning s.req = some (answerOf i s) := by
  rcases decodeCmd_cases s.req.cmd with ⟨hopc, hlen, e⟩ | ⟨-, -, e⟩ | ⟨hopc, e⟩ | ⟨-, -, e⟩
  · obtain rfl : i = .enc := Decoded.instr.inj (hd.symm.trans e)
    have hcmd : s.req.cmd = 0x0001#16 := by rw [← cmd_fields s.req.cmd, hopc, hlen]; rfl
    rw [blockMeaning_of_enc hcmd, answerOf_enc, encBits_eq_encTable]
  · cases hd.symm.trans e
  · obtain rfl : i = .dec (cmdLen s.req.cmd) := Decoded.instr.inj (hd.symm.trans e)
    rw [blockMeaning_of_dec hopc]
    by_cases hlen : cmdLen s.req.cmd = 10#8
    · rw [if_pos hlen, hlen, answerOf_dec_ten, decBits_eq_decTable]
    · rw [if_neg hlen, answerOf_dec_other hlen]
  · cases hd.symm.trans e

/-- The meaning of a request, by what its word decodes to. -/
theorem blockMeaning_cases (r : Request) :
    (∃ i, decodeCmd r.cmd = .instr i ∧ ∀ s : State, s.req = r → blockMeaning r = some (answerOf i s)) ∨
    (∃ why, decodeCmd r.cmd = .rejected why ∧ blockMeaning r = none) := by
  cases hd : decodeCmd r.cmd with
  | instr i =>
    refine .inl ⟨i, rfl, fun s hs => ?_⟩
    subst hs
    exact blockMeaning_of_decoded hd
  | rejected why => exact .inr ⟨why, rfl, blockMeaning_of_rejected hd⟩

/-- A step on a request with a meaning answers by that meaning. -/
theorem step_of_meaning {s : State} {r : Request} {rest : List Request} {a : Answer} (hp : s.pending = r :: rest)
    (ha : blockMeaning r = some a) : step s = .next ((s.present r rest).respond a) := by
  rcases blockMeaning_cases r with ⟨i, hd, hm⟩ | ⟨why, -, hm⟩
  · rw [step_of_decoded hp hd, exec_eq, Option.some.inj ((hm (s.present r rest) rfl).symm.trans ha)]
  · cases hm.symm.trans ha

theorem step_of_meaning_none {s : State} {r : Request} {rest : List Request} (hp : s.pending = r :: rest)
    (ha : blockMeaning r = none) : ∃ why, step s = .refused (.reservedCommand why) := by
  rcases blockMeaning_cases r with ⟨i, -, hm⟩ | ⟨why, hd, -⟩
  · cases (hm (s.present r rest) rfl).symm.trans ha
  · exact ⟨why, step_of_rejected hp hd⟩

/-- The meaning is defined exactly on the admitted requests. -/
theorem blockMeaning_defined_iff (r : Request) : (∃ a, blockMeaning r = some a) ↔ cmdAdmitted r.cmd = true := by
  rw [cmdAdmitted_iff_decodes]
  rcases blockMeaning_cases r with ⟨i, hd, hm⟩ | ⟨why, hd, hm⟩
  · exact ⟨fun _ => ⟨i, hd⟩, fun _ => ⟨_, hm { State.reset with req := r } rfl⟩⟩
  · simp [hd, hm]

/-- Settles O10, from the two closed forms and the meaning of what each word decodes to. -/
theorem stepMeansBlockMeaning : Obligations.StepMeansBlockMeaning := fun s r _ hp =>
  ⟨fun a ha => ⟨_, step_of_meaning hp ha, rfl, a.shownBy_drive s.draws, rfl, rfl⟩, step_of_meaning_none hp,
    blockMeaning_defined_iff r⟩

end Sys2Proof.Machine
end

section
/-! PROOF. The frame of a transaction, and what a response depends on (`10_state.md` R28, R31, R32, R37). -/
namespace Sys2Proof.Machine

/-- R31: the status a command's response is driven with. -/
theorem answerOf_status (i : Instr) (s : State) (n : Nat) :
    ((∃ len : Byte, i = .dec len ∧ len ≠ 10#8) ∧ ((answerOf i s).drive n).status = 1#2) ∨
    ((¬∃ len : Byte, i = .dec len ∧ len ≠ 10#8) ∧ ((answerOf i s).drive n).status = 0#2) := by
  cases i with
  | enc => exact .inr ⟨by rintro ⟨_, ⟨⟩, -⟩, rfl⟩
  | dec len =>
    by_cases h : len = 10#8
    · subst h
      exact .inr ⟨fun ⟨_, e, hne⟩ => hne (Instr.dec.inj e).symm, rfl⟩
    · exact .inl ⟨⟨len, rfl, h⟩, by rw [answerOf_dec_other h]; rfl⟩

/-- Settles O9: a command only responds, and its response fixes the status. -/
theorem commandFrame : Obligations.CommandFrame := by
  intro i s
  refine ⟨_, answerOf i s, exec_eq i s, rfl, rfl, rfl, Answer.shownBy_drive _ _, ?_⟩
  rw [State.respond_rsp]
  rcases answerOf_status i s s.draws with ⟨hdec, hst⟩ | ⟨hdec, hst⟩
  · simp [hst, hdec]
  · simp [hst, hdec]

/-- The meaning of a request reads the command word, `x` where it is ENC and `e` where it is DEC with LEN = 10. -/
theorem blockMeaning_congr {r r' : Request} (hcmd : r'.cmd = r.cmd) (hx : r.cmd = 0x0001#16 → r'.x = r.x)
    (he : r.cmd = 0x0A02#16 → r'.e = r.e) : blockMeaning r' = blockMeaning r := by
  unfold blockMeaning
  rw [hcmd]
  split
  · next henc => rw [hx henc]
  · split
    · next hopc =>
      split
      · next hlen =>
        have hword : r.cmd = 0x0A02#16 := by
          rw [← cmd_fields r.cmd, show cmdOpc r.cmd = 0x02#8 from hopc, show cmdLen r.cmd = 10#8 from hlen]
          rfl
        rw [he hword]
      · rfl
    · rfl

/-- Settles O11: both states step by the meaning of their requests, and the two requests have one meaning. -/
theorem responseDependsOnReadFieldsOnly : Obligations.ResponseDependsOnReadFieldsOnly := by
  intro s s' r r' rest rest' hp hp' hadm hcmd hx he
  obtain ⟨a, ha⟩ := (blockMeaning_defined_iff r).2 hadm
  have ha' : blockMeaning r' = some a := (blockMeaning_congr hcmd hx he).trans ha
  exact ⟨_, _, a, step_of_meaning hp ha, step_of_meaning hp' ha', rfl, rfl, a.shownBy_drive s.draws,
    a.shownBy_drive s'.draws⟩

/-- Settles O5, by the step's equation for a word that decodes. -/
theorem stepRunsDecodedCommand : Obligations.StepRunsDecodedCommand :=
  fun _ _ _ _ hp hd => step_of_decoded hp hd

/-- Settles O13: the response is driven with the draw of the state it is given in. -/
theorem unspecifiedFieldsAreDraws : Obligations.UnspecifiedFieldsAreDraws := by
  intro s
  refine ⟨⟨_, exec_eq _ s, rfl, rfl⟩, ⟨_, exec_eq _ s, rfl, rfl⟩, fun len h => ⟨_, exec_eq _ s, ?_⟩⟩
  rw [answerOf_dec_other h]
  exact ⟨rfl, rfl, rfl⟩

end Sys2Proof.Machine
end

section
/-! PROOF. A placed command word is run by the next step (log 3). -/
namespace Sys2Proof.Machine

/-- The word of a command is read back as that command. -/
theorem decodeCmd_encode (i : Instr) : decodeCmd (encode i) = .instr i := by
  cases i with
  | enc => rfl
  | dec len => simp [decodeCmd, encode]

/-- Placing a command's word leaves one request at the head: the next one, or the one on the port, with that word. -/
theorem withFetchWord_encode (s : State) (i : Instr) :
    ∃ r : Request, r.cmd = encode i ∧
      s.withFetchWord 16 (encode i).toNat = { s with pending := r :: s.pending.tail } ∧
      ∀ r₀ rest, s.pending = r₀ :: rest → r.x = r₀.x ∧ r.e = r₀.e := by
  have hword : BitVec.ofNat 16 ((encode i).toNat % 2 ^ 16) = encode i := by
    rw [Nat.mod_eq_of_lt (encode i).isLt, BitVec.ofNat_toNat, BitVec.setWidth_eq]
  cases hp : s.pending with
  | nil =>
    refine ⟨{ s.req with cmd := encode i }, rfl, ?_, fun _ _ h => by cases h⟩
    rw [State.withFetchWord_nil hp, hword]
    rfl
  | cons r rest =>
    refine ⟨{ r with cmd := encode i }, rfl, ?_, fun _ _ h => by cases h; exact ⟨rfl, rfl⟩⟩
    rw [State.withFetchWord_cons hp, hword]
    rfl

/-- Settles O8: the placed word decodes to its command, which the step then runs. -/
theorem placedWordRunsNext : Obligations.PlacedWordRunsNext := by
  intro s i
  obtain ⟨r, hcmd, hplaced, hops⟩ := withFetchWord_encode s i
  refine ⟨r, hcmd, ?_, hops⟩
  rw [hplaced]
  exact step_of_decoded rfl (hcmd ▸ decodeCmd_encode i)

end Sys2Proof.Machine
end

section
/-! PROOF. The same request presented twice (`20_memory.md` R53). -/
namespace Sys2Proof.Machine

/-- Settles O12: both steps answer by the one meaning of the request, and the second finds the response list one longer. -/
theorem repeatedRequestGetsSameResponse : Obligations.RepeatedRequestGetsSameResponse := by
  intro s r rest hp hadm
  obtain ⟨a, ha⟩ := (blockMeaning_defined_iff r).2 hadm
  let t := (s.present r (r :: rest)).respond a
  have hfirst : step s = .next t := step_of_meaning hp ha
  have hsecond : step t = .next ((t.present r rest).respond a) := step_of_meaning rfl ha
  exact ⟨_, _, a, hfirst, hsecond, List.append_assoc s.results [a] [a], a.shownBy_drive s.draws, a.shownBy_drive t.draws⟩

end Sys2Proof.Machine
end

section
/-! PROOF. Decoder, encoder and opcode table agree (`30_encoding.md` R60 to R65), and a reserved word is refused
(`60_exceptions.md` R136). -/
namespace Sys2Proof.Machine

theorem decodeCmd_eq_enc_iff (cmd : CmdWord) :
    decodeCmd cmd = .instr .enc ↔ cmdOpc cmd = 0x01#8 ∧ cmdLen cmd = 0x00#8 := by
  rcases decodeCmd_cases cmd with ⟨hopc, hlen, e⟩ | ⟨hopc, hlen, e⟩ | ⟨hopc, e⟩ | ⟨hopc, -, e⟩ <;> simp [*]

theorem decodeCmd_eq_dec_iff (cmd : CmdWord) (len : Byte) :
    decodeCmd cmd = .instr (.dec len) ↔ cmdOpc cmd = 0x02#8 ∧ cmdLen cmd = len := by
  rcases decodeCmd_cases cmd with ⟨hopc, -, e⟩ | ⟨hopc, -, e⟩ | ⟨hopc, e⟩ | ⟨-, hopc, e⟩ <;> simp [e, hopc]

/-- A word is rejected exactly when it decodes to no command. -/
theorem decodeCmd_rejected_iff (cmd : CmdWord) :
    (∃ why, decodeCmd cmd = .rejected why) ↔ ¬(cmdOpc cmd = 0x01#8 ∧ cmdLen cmd = 0x00#8) ∧ cmdOpc cmd ≠ 0x02#8 := by
  rw [← not_or, ← cmdAdmitted_iff, cmdAdmitted_iff_decodes]
  cases decodeCmd cmd <;> simp

/-- The word of a command is the one word that decodes to it. -/
theorem encode_eq_iff (i : Instr) (cmd : CmdWord) : encode i = cmd ↔ decodeCmd cmd = .instr i := by
  refine ⟨fun h => h ▸ decodeCmd_encode i, fun h => ?_⟩
  rw [← cmd_fields cmd]
  cases i with
  | enc =>
    obtain ⟨hopc, hlen⟩ := (decodeCmd_eq_enc_iff cmd).1 h
    rw [hopc, hlen]
    rfl
  | dec len =>
    obtain ⟨hopc, hlen⟩ := (decodeCmd_eq_dec_iff cmd len).1 h
    rw [hopc, hlen]
    rfl

theorem encRow_covers_iff (cmd : CmdWord) :
    (OpcodeRow.mk "ENC" 0x0001#16 0xFFFF#16).covers cmd = true ↔ encode .enc = cmd := by
  rw [OpcodeRow.covers, beq_iff_eq, show cmd &&& 0xFFFF#16 = cmd from BitVec.and_allOnes, eq_comm]
  rfl

theorem decRow_covers_iff (cmd : CmdWord) :
    (OpcodeRow.mk "DEC" 0x0002#16 0x00FF#16).covers cmd = true ↔ ∃ len, encode (.dec len) = cmd := by
  have hmask : (cmd &&& 0x00FF#16).toNat = cmd.toNat % 256 := by
    rw [BitVec.toNat_and]
    exact Nat.and_two_pow_sub_one_eq_mod _ 8
  rw [OpcodeRow.covers, beq_iff_eq, ← BitVec.toNat_inj, hmask]
  simp only [encode_eq_iff, decodeCmd_eq_dec_iff, exists_and_left, exists_eq', and_true, cmdOpc_eq_iff]
  rfl

/-- Settles O4: a command's word is the one word that decodes to it, and each row covers its command's words. -/
theorem encodeDecodeAgree : Obligations.EncodeDecodeAgree := by
  refine ⟨fun i _ => decodeCmd_encode i, fun cmd i => (encode_eq_iff i cmd).2, fun cmd row hrow => ?_⟩
  obtain rfl | rfl : row = ⟨"ENC", 0x0001#16, 0xFFFF#16⟩ ∨ row = ⟨"DEC", 0x0002#16, 0x00FF#16⟩ := by
    simpa [opcodeTable] using hrow
  · rw [encRow_covers_iff]
    refine ⟨fun h => ⟨.enc, h, rfl⟩, ?_⟩
    rintro ⟨_ | len, h, hname⟩
    · exact h
    · exact absurd hname (show "ENC" ≠ "DEC" by decide)
  · rw [decRow_covers_iff]
    refine ⟨fun ⟨len, h⟩ => ⟨.dec len, h, rfl⟩, ?_⟩
    rintro ⟨_ | len, h, hname⟩
    · exact absurd hname (show "DEC" ≠ "ENC" by decide)
    · exact ⟨len, h⟩

/-- Settles O6: of the four answers of the decoder two admit the word; the other two are R64's two reasons. -/
theorem stepRefusesReservedWords : Obligations.StepRefusesReservedWords := by
  intro s r rest hp hadm
  have hno : ∀ i, decodeCmd r.cmd ≠ .instr i := fun i hd =>
    Bool.false_ne_true (hadm.symm.trans ((cmdAdmitted_iff_decodes _).2 ⟨i, hd⟩))
  rcases decodeCmd_cases r.cmd with ⟨-, -, hd⟩ | ⟨hopc, hlen, hd⟩ | ⟨-, hd⟩ | ⟨hopc, hopc', hd⟩
  · exact absurd hd (hno _)
  · exact .inl ⟨(cmdOpc_eq_iff ..).1 hopc, fun h => hlen ((cmdLen_eq_iff ..).2 h), step_of_rejected hp hd⟩
  · exact absurd hd (hno _)
  · exact .inr ⟨fun h => hopc ((cmdOpc_eq_iff ..).2 h), fun h => hopc' ((cmdOpc_eq_iff ..).2 h),
      step_of_rejected hp hd⟩

/-- Settles O1: each word evaluated. -/
theorem decodeReadsWrittenOutWords : Obligations.DecodeReadsWrittenOutWords := by
  unfold Obligations.DecodeReadsWrittenOutWords
  decide

/-- Settles O2: what a word decodes to is fixed by its two fields, which are its number's remainder and quotient by 256. -/
theorem decodeClassifiesEveryWord : Obligations.DecodeClassifiesEveryWord := by
  intro cmd
  rw [decodeCmd_eq_enc_iff, decodeCmd_rejected_iff]
  simp only [decodeCmd_eq_dec_iff, ne_eq, cmdOpc_eq_iff, cmdLen_eq_iff]
  exact ⟨Iff.rfl, fun _ => Iff.rfl, Iff.rfl⟩

end Sys2Proof.Machine
end

section
/-! PROOF. How many command words decode to each command (the count that closes `30_encoding.md` R64). -/
namespace Sys2Proof.Machine

/-- The number of a word that decodes to ENC, of one that decodes to a DEC, and of one that is rejected (R65). -/
theorem decodeCmd_ofNat_cases {n : ℕ} (hn : n < 65536) :
    (decodeCmd (BitVec.ofNat 16 n) = .instr .enc ∧ n = 1) ∨
    (∃ len, decodeCmd (BitVec.ofNat 16 n) = .instr (.dec len) ∧ n % 256 = 2) ∨
    (∃ why, decodeCmd (BitVec.ofNat 16 n) = .rejected why ∧ ¬(n = 1 ∨ n % 256 = 2)) := by
  obtain ⟨henc, hdec, hrej⟩ := decodeClassifiesEveryWord (BitVec.ofNat 16 n)
  rw [BitVec.toNat_ofNat, Nat.mod_eq_of_lt hn] at henc hdec hrej
  cases hd : decodeCmd (BitVec.ofNat 16 n) with
  | instr i =>
    cases i with
    | enc => exact .inl ⟨rfl, by have := henc.1 hd; omega⟩
    | dec len => exact .inr (.inl ⟨len, rfl, ((hdec len).1 hd).1⟩)
  | rejected why => exact .inr (.inr ⟨why, rfl, by have := hrej.1 ⟨why, hd⟩; omega⟩)

theorem card_filter_eq_one_word : ((Finset.range 65536).filter (· = 1)).card = 1 := by
  rw [Finset.filter_eq', if_pos (by simp), Finset.card_singleton]

theorem card_filter_low_byte_two : ((Finset.range 65536).filter (· % 256 = 2)).card = 256 := by
  rw [← Nat.count_eq_card_filter_range]
  exact Nat.count_modEq_card 65536 (by norm_num) 2

/-- Two disjoint kinds and what is of neither kind make up the whole set. -/
theorem card_filter_neither (s : Finset ℕ) {p q : ℕ → Prop} [DecidablePred p] [DecidablePred q] (h : ∀ n, p n → ¬q n) :
    (s.filter fun n => ¬(p n ∨ q n)).card = s.card - ((s.filter p).card + (s.filter q).card) := by
  have hdisj : Disjoint (s.filter p) (s.filter q) := Finset.disjoint_filter.2 fun n _ => h n
  rw [← Finset.card_union_of_disjoint hdisj, ← Finset.filter_or]
  exact Nat.eq_sub_of_add_eq' (Finset.card_filter_add_card_filter_not _)

theorem card_filter_reserved : ((Finset.range 65536).filter fun n => ¬(n = 1 ∨ n % 256 = 2)).card = 65279 := by
  rw [card_filter_neither _ fun n h => by omega, Finset.card_range, card_filter_eq_one_word, card_filter_low_byte_two]

/-- Settles O3: the three counted sets are those of the numbers 1, 2 modulo 256, and neither. -/
theorem commandWordCounts : Obligations.CommandWordCounts := by
  refine ⟨(congrArg Finset.card (Finset.filter_congr fun n hn => ?_)).trans card_filter_eq_one_word,
    (congrArg Finset.card (Finset.filter_congr fun n hn => ?_)).trans card_filter_low_byte_two,
    (congrArg Finset.card (Finset.filter_congr fun n hn => ?_)).trans card_filter_reserved⟩
  all_goals
    rcases decodeCmd_ofNat_cases (Finset.mem_range.1 hn) with ⟨hd, h⟩ | ⟨len, hd, h⟩ | ⟨why, hd, h⟩
    · simp [hd]; omega
    · simp [hd]; omega
    · simp [hd]; omega

end Sys2Proof.Machine
end

section
/-! PROOF. ENC completes in every state with the closed form of `40_encode.md` R97, and what is legal stays legal. -/
namespace Sys2Proof.Machine

/-- ENC only responds, with the closed form of its operand. -/
theorem exec_enc (s : State) : exec .enc s = .next (s.respond (.encOk (encTable s.req.x))) := by
  rw [exec_eq, answerOf_enc, encBits_eq_encTable]

/-- Settles O18: ENC's response is the table's, and a response changes nothing but the port, the list and the draws. -/
theorem encCompletesWithClosedForm : Obligations.EncCompletesWithClosedForm :=
  fun s => ⟨_, _, exec_enc s⟩

/-! ### An 80-bit value and its fields -/

/-- An 80-bit value is its sign, exponent and mantissa. -/
theorem ext_toNat_eq_fields (v : Ext80) :
    v.toNat = (extSign v).toNat * 2 ^ 79 + (extExp v).toNat * 2 ^ 64 + (extMant v).toNat := by
  rw [extSign_toNat, extExp_toNat, extMant_toNat]
  omega

/-- The fields of a value that is written as sign, exponent and mantissa. -/
theorem ext_fields_of_toNat {v : Ext80} {s : BitVec 1} {e m : Nat} (he : e < 2 ^ 15) (hm : m < 2 ^ 64)
    (h : v.toNat = s.toNat * 2 ^ 79 + e * 2 ^ 64 + m) :
    extSign v = s ∧ (extExp v).toNat = e ∧ (extMant v).toNat = m := by
  have hs := s.isLt
  refine ⟨BitVec.eq_of_toNat_eq ?_, ?_, ?_⟩
  · rw [extSign_toNat]
    omega
  · rw [extExp_toNat]
    omega
  · rw [extMant_toNat]
    omega

/-- The mantissa has its leading bit set exactly when it is at least `2^63`. -/
theorem leadingBit_eq_one_iff (m : Bin64) : m.extractLsb' 63 1 = 1#1 ↔ 2 ^ 63 ≤ m.toNat := by
  have := m.isLt
  rw [← BitVec.toNat_inj, BitVec.extractLsb'_toNat, Nat.shiftRight_eq_div_pow, BitVec.toNat_ofNat]
  omega

theorem low11_eq_zero_iff (m : Bin64) : m.extractLsb' 0 11 = 0#11 ↔ m.toNat % 2 ^ 11 = 0 := by
  rw [← BitVec.toNat_inj, BitVec.extractLsb'_toNat, Nat.shiftRight_zero, BitVec.toNat_ofNat, Nat.zero_mod]

/-- The row of a finite nonzero operand `k * 2^q`, by fields: its sign, its biased exponent, and `k` moved up to bit 63. -/
theorem encTable_fields {u : Bin64} (h : isFinite u = true) (hz : isZero u = false) {neg : Bool} {k : Nat} {q : ℤ}
    (hv : val u = .fin neg ⟨k, q⟩) (hg : OnGrid k q) (hq : q ≤ 971) (hk : k ≠ 0) :
    extSign (encTable u) = binSign u ∧ ((extExp (encTable u)).toNat : ℤ) = q + Nat.log2 k + 16383 ∧
      (extMant (encTable u)).toNat = k * 2 ^ (63 - Nat.log2 k) := by
  have hlog : Nat.log2 k < 53 := (Nat.log2_lt hk).2 hg.lt
  have hge := hg.le
  have hnat := encBits_of_finite 0 h hz hv
  rw [encBits_eq_encTable] at hnat
  obtain ⟨hs, he, hm⟩ := ext_fields_of_toNat (by omega) (encMantissa_bounds hk hg.lt).2 hnat
  exact ⟨hs, by omega, hm⟩

/-! ### The set of R100 -/

/-- The row of a finite nonzero operand is in class (c) of R100 where it is normal, in class (d) where it is subnormal. -/
theorem encOutput_encTable_of_finite {u : Bin64} (h : isFinite u = true) (hz : isZero u = false) :
    EncOutput (encTable u) := by
  obtain ⟨k, q, hv, hg, hq, hk, -⟩ := val_nonzero h hz
  obtain ⟨-, hexp, hmant⟩ := encTable_fields h hz hv hg hq hk
  have hk53 := hg.lt
  have hge := hg.le
  have hlead : (extMant (encTable u)).extractLsb' 63 1 = 1#1 :=
    (leadingBit_eq_one_iff _).2 (hmant ▸ (encMantissa_bounds hk hk53).1)
  rcases Nat.lt_or_ge k (2 ^ 52) with hlt | hnormal
  · obtain rfl : q = -1074 := hg.normal.resolve_left (by omega)
    have hlog : Nat.log2 k < 52 := (Nat.log2_lt hk).2 hlt
    exact .inr (.inr (.inr ⟨Nat.log2 k, by omega, by omega, hlead, by rw [hmant, Nat.mul_mod_left]⟩))
  · have hlog : Nat.log2 k = 52 := (Nat.log2_eq_iff hk).2 ⟨hnormal, hk53⟩
    rw [hlog] at hexp hmant
    exact .inr (.inr (.inl ⟨by omega, by omega, hlead, (low11_eq_zero_iff _).2 (by rw [hmant, Nat.mul_mod_left])⟩))

/-- R100, one direction: each row of the table lies in one of the classes (a) to (d). -/
theorem encOutput_encTable (u : Bin64) : EncOutput (encTable u) := by
  rcases bin_classes u with hz | ⟨hf, hz⟩ | hi | hn
  · exact .inl (encTable_of_isZero hz)
  · exact encOutput_encTable_of_finite hf hz
  · rw [encTable_of_isInf hi]
    exact .inr (.inl (by split <;> decide))
  · rw [encTable_of_isNaN hn]
    exact .inr (.inl (by decide))

/-- Class (b) of R100 is reached from the infinity of its sign. -/
theorem exists_encTable_of_infinity {v : Ext80} (hexp : extExp v = 0x7FFF#15) (hmant : extMant v = 0#64) :
    ∃ u, encTable u = v := by
  refine ⟨binOf (extSign v) 0x7FF#11 0#52, BitVec.eq_of_toNat_eq ?_⟩
  rw [encTable_of_isInf ((isInf_iff _).2 ⟨binExp_binOf .., binFrac_binOf ..⟩), binSign_binOf, ext_toNat_eq_fields v, hexp,
    hmant]
  rcases one_bit (extSign v) with hs | hs <;> rw [hs] <;> rfl

/-- Class (c) of R100 is reached from the normal number with that exponent and the bits below the leading 1. -/
theorem exists_encTable_of_normal {v : Ext80} (hlo : 0x3C01 ≤ (extExp v).toNat) (hhi : (extExp v).toNat ≤ 0x43FE)
    (hlead : 2 ^ 63 ≤ (extMant v).toNat) (hlow : (extMant v).toNat % 2 ^ 11 = 0) : ∃ u, encTable u = v := by
  have hm := (extMant v).isLt
  have he : (BitVec.ofNat 11 ((extExp v).toNat - 15360)).toNat = (extExp v).toNat - 15360 := by
    rw [BitVec.toNat_ofNat, Nat.mod_eq_of_lt (by omega)]
  have hf : (BitVec.ofNat 52 ((extMant v).toNat / 2 ^ 11 - 2 ^ 52)).toNat = (extMant v).toNat / 2 ^ 11 - 2 ^ 52 := by
    rw [BitVec.toNat_ofNat, Nat.mod_eq_of_lt (by omega)]
  refine ⟨binOf (extSign v) (BitVec.ofNat 11 ((extExp v).toNat - 15360))
    (BitVec.ofNat 52 ((extMant v).toNat / 2 ^ 11 - 2 ^ 52)), BitVec.eq_of_toNat_eq ?_⟩
  rw [encTable_of_normal, binSign_binOf, binExp_binOf, binFrac_binOf, he, hf, ext_toNat_eq_fields v]
  · omega
  · rw [binExp_binOf, Ne, ← BitVec.toNat_inj, he, BitVec.toNat_ofNat]
    omega
  · rw [binExp_binOf, Ne, ← BitVec.toNat_inj, he, BitVec.toNat_ofNat]
    omega

/-- Class (d) of R100 is reached from the subnormal whose fraction is the mantissa moved down to the top bit `p`. -/
theorem exists_encTable_of_subnormal {v : Ext80} {p : Nat} (hp : p ≤ 51) (hexp : (extExp v).toNat = 15309 + p)
    (hlead : 2 ^ 63 ≤ (extMant v).toNat) (hlow : (extMant v).toNat % 2 ^ (63 - p) = 0) : ∃ u, encTable u = v := by
  have hm := (extMant v).isLt
  obtain ⟨f, hf⟩ := Nat.dvd_of_mod_eq_zero hlow
  have hpow : 2 ^ (63 - p) * 2 ^ p = 2 ^ 63 := by rw [← pow_add]; congr 1; omega
  have hge : 2 ^ p ≤ f := Nat.le_of_mul_le_mul_left (by omega : 2 ^ (63 - p) * 2 ^ p ≤ 2 ^ (63 - p) * f) (by positivity)
  have hlt : f < 2 ^ (p + 1) := Nat.lt_of_mul_lt_mul_left (a := 2 ^ (63 - p)) (by rw [pow_succ, ← mul_assoc]; omega)
  have hf52 : f < 2 ^ 52 := hlt.trans_le (Nat.pow_le_pow_right (by norm_num) (by omega))
  have hne : f ≠ 0 := by have := Nat.two_pow_pos p; omega
  have hlog : Nat.log2 f = p := (Nat.log2_eq_iff hne).2 ⟨hge, hlt⟩
  have hfrac : (BitVec.ofNat 52 f).toNat = f := by rw [BitVec.toNat_ofNat, Nat.mod_eq_of_lt hf52]
  refine ⟨binOf (extSign v) 0#11 (BitVec.ofNat 52 f), BitVec.eq_of_toNat_eq ?_⟩
  rw [encTable_of_subnormal (binExp_binOf ..) (by rw [binFrac_binOf, hfrac]; exact hne), binSign_binOf, binFrac_binOf, hfrac,
    hlog, ext_toNat_eq_fields v, hexp, hf]
  ring

/-- R100: the values of the table are exactly the set (a) to (d). -/
theorem encOutput_iff (v : Ext80) : EncOutput v ↔ ∃ u, encTable u = v := by
  constructor
  · rintro (rfl | ⟨hexp, hmant⟩ | ⟨hlo, hhi, hlead, hlow⟩ | ⟨p, hp, hexp, hlead, hlow⟩)
    · exact ⟨0#64, encTable_of_isZero (by decide)⟩
    · exact exists_encTable_of_infinity hexp hmant
    · exact exists_encTable_of_normal hlo hhi ((leadingBit_eq_one_iff _).1 hlead) ((low11_eq_zero_iff _).1 hlow)
    · exact exists_encTable_of_subnormal hp hexp ((leadingBit_eq_one_iff _).1 hlead) hlow
  · rintro ⟨u, rfl⟩
    exact encOutput_encTable u

/-- Settles O30: ENC's result is the table's value for its operand, and every operand stands on the port of some state. -/
theorem encOutputSetIsExact : Obligations.EncOutputSetIsExact := by
  intro v
  rw [encOutput_iff]
  constructor
  · rintro ⟨u, rfl⟩
    exact ⟨{ State.reset with req := { cmd := 0x0001#16, x := u, e := 0#80 } }, _, exec_enc _, rfl⟩
  · rintro ⟨s, t, ht, rfl⟩
    obtain rfl := Host.Outcome.next.inj ((exec_enc s).symm.trans ht)
    exact ⟨s.req.x, rfl⟩

/-! ### What every step keeps -/

/-- R117: DEC's result is no NaN, since its magnitude is none and the sign leaves that. -/
theorem isNaN_decBits (v : Ext80) : isNaN (decBits v) = false := by
  obtain ⟨-, hexp, hfrac⟩ := decBits_spec v
  rw [isNaN, hexp, hfrac]
  exact (decMagnitude_sign_not_nan _ _ _).2

/-- Every response of a command is legal. -/
theorem answerOf_legal (i : Instr) (s : State) : (answerOf i s).Legal := by
  cases i with
  | enc =>
    rw [answerOf_enc, encBits_eq_encTable]
    exact encOutput_encTable s.req.x
  | dec len =>
    by_cases h : len = 10#8
    · rw [h, answerOf_dec_ten]
      exact isNaN_decBits s.req.e
    · rw [answerOf_dec_other h]
      trivial

/-- A legal response keeps a state good: the list gains it at its end, and the port shows it. -/
theorem State.Inv.respond {s : State} (h : s.Inv) {a : Answer} (ha : a.Legal) : (s.respond a).Inv := by
  obtain ⟨hlegal, -⟩ := h
  constructor
  · intro b hb
    rw [State.respond_results, List.mem_append, List.mem_singleton] at hb
    rcases hb with hb | rfl
    · exact hlegal b hb
    · exact ha
  · intro b hb
    rw [State.respond_results, List.getLast?_concat] at hb
    obtain rfl := Option.some.inj hb
    exact a.shownBy_drive s.draws

/-- Presenting a request touches neither the list of responses nor the response port. -/
theorem State.Inv.present {s : State} (h : s.Inv) (r : Request) (rest : List Request) : (s.present r rest).Inv := h

/-- Settles O17: a step presents a request and responds legally. -/
theorem stepKeepsResponsesLegal : Obligations.StepKeepsResponsesLegal := by
  intro s t h ht
  obtain ⟨r, rest, i, -, -, rfl⟩ := step_next ht
  exact (h.present r rest).respond (answerOf_legal i _)

end Sys2Proof.Machine
end

section
/-! PROOF. ENC's sign extractor, normalizer and detector on every operand (`40_encode.md` R81, R84 to R86, R91). -/
namespace Sys2Proof.Machine

/-! ### The sign extractor -/

/-- What flipping bit 63 of a pattern does to its value: the sign of a number or an infinity flips, a NaN stays NaN. -/
def Val.neg : Val → Val
  | .fin neg a => .fin (!neg) a
  | .inf neg => .inf (!neg)
  | .nan => .nan

theorem val_binNeg (u : Bin64) : val (binNeg u) = (val u).neg := by
  have hsign : (binSign (binNeg u) == 1#1) = !(binSign u == 1#1) := by
    rw [binSign_binNeg]
    rcases one_bit (binSign u) with hs | hs <;> rw [hs] <;> rfl
  simp only [val, hsign, binExp_binNeg, binFrac_binNeg]
  split
  · split <;> rfl
  · split <;> rfl

theorem lt0_iff (u : Bin64) : lt0 u = true ↔ binSign u = 1#1 ∧ isNaN u = false ∧ isZero u = false := by
  simp [lt0, and_assoc]

theorem val_of_isZero {u : Bin64} (h : isZero u = true) : val u = .fin (binSign u == 1#1) ⟨0, -1074⟩ := by
  obtain ⟨he, hf⟩ := (isZero_iff u).1 h
  rw [val_of_exp_zero he, hf]
  rfl

theorem signExtract_of_isZero {u : Bin64} (h : isZero u = true) : signExtract u = (0x0000#16, u) := by
  simp [signExtract, lt0, h]

/-- The value of an operand after step 1, by the class of the operand. -/
theorem val_signExtract_cases (u : Bin64) :
    (isZero u = true ∧ val (signExtract u).2 = .fin (binSign u == 1#1) ⟨0, -1074⟩) ∨
    (isFinite u = true ∧ isZero u = false ∧ ∃ a, val (signExtract u).2 = .fin false a) ∨
    (isInf u = true ∧ val (signExtract u).2 = .inf false) ∨
    (isNaN u = true ∧ val (signExtract u).2 = .nan) := by
  rcases bin_classes u with hz | ⟨hf, hz⟩ | hi | hn
  · exact .inl ⟨hz, by rw [signExtract_of_isZero hz, val_of_isZero hz]⟩
  · obtain ⟨k, q, hv, -⟩ := val_nonzero hf hz
    exact .inr (.inl ⟨hf, hz, _, val_signExtract hf hz hv⟩)
  · exact .inr (.inr (.inl ⟨hi, val_signExtract_of_isInf hi⟩))
  · exact .inr (.inr (.inr ⟨hn, by rw [signExtract_of_isNaN hn, val_of_nan hn]⟩))

/-- `lt0` says that the value is below zero. -/
theorem lt0_iff_val (u : Bin64) : lt0 u = true ↔ val u = .inf true ∨ ∃ a, val u = .fin true a ∧ 0 < a.value := by
  rw [lt0_iff]
  rcases bin_classes u with hz | ⟨hf, hz⟩ | hi | hn
  · simp [hz, val_of_isZero hz, Exact.value]
  · obtain ⟨k, q, hv, -, -, hk, -⟩ := val_nonzero hf hz
    have hpos : 0 < (⟨k, q⟩ : Exact).value := (Exact.value_pos_iff _).2 (Nat.pos_of_ne_zero hk)
    simp [isNaN_of_isFinite hf, hz, hv, hpos]
  · simp [isNaN_of_isInf hi, isZero_of_not_finite (isFinite_of_isInf hi), val_of_inf hi]
  · simp [hn, val_of_nan hn]

theorem eq_minusZero {u : Bin64} (hz : isZero u = true) (hs : binSign u = 1#1) : u = 0x8000000000000000#64 := by
  obtain ⟨he, hf⟩ := (isZero_iff u).1 hz
  exact bin_ext (hs.trans (by decide)) (he.trans (by decide)) (hf.trans (by decide))

/-- Settles O19: the flag is set where the value is below zero, and step 1 leaves a magnitude in each class. -/
theorem signFlagExactlyBelowZero : Obligations.SignFlagExactlyBelowZero := by
  intro u
  refine ⟨lt0_iff_val u, fun h => by rw [signExtract, if_pos h], fun h => by simp [signExtract, h],
    fun neg a h => by rw [val_binNeg, h, Val.neg], fun neg h => by rw [val_binNeg, h, Val.neg],
    fun h => by rw [val_binNeg, h, Val.neg], ?_⟩
  rcases val_signExtract_cases u with ⟨hz, hv⟩ | ⟨-, -, a, hv⟩ | ⟨-, hv⟩ | ⟨-, hv⟩
  · exact .inr (.inr ⟨_, _, hv, fun hs => eq_minusZero hz (by simpa using hs)⟩)
  · exact .inr (.inr ⟨_, _, hv, fun hs => by cases hs⟩)
  · exact .inr (.inl hv)
  · exact .inl hv

/-! ### The normalizer -/

/-- The normalizer on a finite nonzero operand `k * 2^q`, after step 1. -/
theorem frexp_signExtract (eAny : ℤ) {u : Bin64} (h : isFinite u = true) (hz : isZero u = false) {neg : Bool} {k : Nat}
    {q : ℤ} (hv : val u = .fin neg ⟨k, q⟩) :
    frexp eAny (val (signExtract u).2) = (.fin false ⟨k, -(Nat.log2 k + 1 : ℤ)⟩, q + (Nat.log2 k + 1 : ℤ)) := by
  rw [val_signExtract h hz hv]
  rfl

/-- R91 (a): of a finite nonzero operand the mantissa is below 1 and the exponent in [-1073, 1024]. -/
theorem frexp_signExtract_ranges (eAny : ℤ) {u : Bin64} (h : isFinite u = true) (hz : isZero u = false) :
    ∃ m e, frexp eAny (val (signExtract u).2) = (.fin false m, e) ∧ m.value < 1 ∧ -1073 ≤ e ∧ e ≤ 1024 := by
  obtain ⟨k, q, hv, hg, hq, hk, -⟩ := val_nonzero h hz
  obtain ⟨-, -, hlt, -⟩ := frexp_spec eAny false (a := ⟨k, q⟩) hk
  have hlog : Nat.log2 k < 53 := (Nat.log2_lt hk).2 hg.lt
  have hge := hg.le
  exact ⟨_, _, frexp_signExtract eAny h hz hv, hlt, by omega, by omega⟩

/-- Settles O24: the pair of the normalizer, with the index of the top bit 52 for a normal operand and `log2 f` for a
subnormal one. -/
theorem normalizerBitForms : Obligations.NormalizerBitForms := by
  intro eAny u h hz
  have hlt := (binFrac u).isLt
  by_cases he : binExp u = 0#11
  · have he' : (binExp u).toNat = 0 := by rw [he]; rfl
    refine ⟨_, _, frexp_signExtract eAny h hz (val_of_exp_zero he), fun _ => by omega, fun _ => ⟨?_, by omega⟩⟩
    rw [Exact.value, zpow_neg, ← div_eq_mul_inv]
    norm_cast
  · have he' : (binExp u).toNat ≠ 0 := fun e => he (BitVec.eq_of_toNat_eq e)
    have hlog : Nat.log2 (2 ^ 52 + (binFrac u).toNat) = 52 := (Nat.log2_eq_iff (by omega)).2 ⟨by omega, by omega⟩
    refine ⟨_, _, frexp_signExtract eAny h hz (val_of_normal he ((isFinite_iff u).1 h)), fun _ => ⟨?_, by omega⟩,
      fun _ => by omega⟩
    rw [hlog, Exact.value, zpow_neg, ← div_eq_mul_inv]
    norm_cast

/-! ### The detector -/

/-- R86: the detector fires exactly on a non-finite operand, whatever exponent `frexp` gives those. -/
theorem detects_frexp_iff (eAny : ℤ) (u : Bin64) :
    detects (frexp eAny (val (signExtract u).2)).1 (frexp eAny (val (signExtract u).2)).2 = true ↔ isFinite u = false := by
  rcases val_signExtract_cases u with ⟨hz, hv⟩ | ⟨hf, hz, -⟩ | ⟨hi, hv⟩ | ⟨hn, hv⟩
  · simp [hv, isFinite_of_isZero hz, frexp, detects, Val.lt1, Exact.lt_iff, Exact.value]
  · obtain ⟨m, e, hfr, hm, -, he⟩ := frexp_signExtract_ranges eAny hf hz
    rw [hfr, detects_of_finite hm (by omega), hf]
    decide
  · simp [hv, isFinite_of_isInf hi, frexp, detects, Val.lt1]
  · simp [hv, isFinite_of_isNaN hn, frexp, detects, Val.lt1]

/-- Settles O22: the detector on every operand, and both sides of its exponent bound. -/
theorem detectorFiresExactlyOnNonFinite : Obligations.DetectorFiresExactlyOnNonFinite := by
  refine ⟨fun eAny u _ => detects_frexp_iff eAny u, fun a ha => ⟨detects_of_finite ha le_rfl, ?_, rfl⟩⟩
  simp [detects, ovfLimit]

theorem val_of_not_finite {u : Bin64} (h : isFinite u = false) :
    val u = .inf false ∨ val u = .inf true ∨ val u = .nan := by
  rcases bin_classes u with hz | ⟨hf, -⟩ | hi | hn
  · cases h.symm.trans (isFinite_of_isZero hz)
  · cases h.symm.trans hf
  · rw [val_of_inf hi]
    cases binSign u == 1#1
    · exact .inl rfl
    · exact .inr (.inl rfl)
  · exact .inr (.inr (val_of_nan hn))

/-- R91 (c): of the classes of R100 only the ten zero bytes have EXP15 = 0. -/
theorem EncOutput.mant_eq_zero {v : Ext80} (h : EncOutput v) (he : extExp v = 0#15) : extMant v = 0#64 := by
  have he' : (extExp v).toNat = 0 := by rw [he]; rfl
  rcases h with rfl | ⟨-, hm⟩ | ⟨hlo, -⟩ | ⟨p, -, hexp, -⟩
  · decide
  · exact hm
  · omega
  · omega

/-- Settles O25: the ranges of the normalizer keep the detector from firing, and R100's set has no EXP15 = 0 but in zero. -/
theorem encReachableRanges : Obligations.EncReachableRanges := by
  refine ⟨fun eAny u h hz => ?_, fun eAny u h => val_of_not_finite ((detects_frexp_iff eAny u).1 h), fun eAny u => ?_⟩
  · obtain ⟨m, e, hfr, hm, hlo, hhi⟩ := frexp_signExtract_ranges eAny h hz
    exact ⟨m, e, hfr, hlo, hhi, by omega, by omega, hm, by omega, detects_of_finite hm (by omega)⟩
  · rw [encBits_eq_encTable]
    exact (encOutput_encTable u).mant_eq_zero

end Sys2Proof.Machine
end

section
/-! PROOF. ENC's exponent scaler, mantissa splitter and packer (`40_encode.md` R88 to R93, R96). -/
namespace Sys2Proof.Machine

/-- Settles O27: the floors of the splitter, and the leading bit read off the high one. -/
theorem splitterFloors : Obligations.SplitterFloors := by
  intro m hm
  obtain ⟨hhi, hlo, hboth⟩ := splitMantissa_spec hm
  refine ⟨hhi, hlo, hboth, fun hge => ?_, fun hlt => ?_⟩
  · have hfloor : (2 ^ 31 : ℤ) ≤ ⌊m.value * 2 ^ 32⌋ := Int.le_floor.2 (by push_cast; linarith only [hge])
    have := (splitMantissa m).1.isLt
    apply BitVec.eq_of_toNat_eq
    rw [BitVec.extractLsb'_toNat, Nat.shiftRight_eq_div_pow, BitVec.toNat_ofNat]
    omega
  · have hfloor : ⌊m.value * 2 ^ 32⌋ < (2 ^ 31 : ℤ) := Int.floor_lt.2 (by push_cast; linarith only [hlt])
    omega

/-- A mantissa below `2^-64` is split into two zero halves. -/
theorem splitMantissa_of_small {m : Exact} (h : m.value < (2 : ℚ) ^ (-64 : ℤ)) : splitMantissa m = (0#32, 0#32) := by
  have hm : m.value < 1 := h.trans (by norm_num)
  have hfloor : ⌊m.value * 2 ^ 64⌋ = 0 := by
    rw [Int.floor_eq_zero_iff]
    refine ⟨mul_nonneg m.value_nonneg (by norm_num), ?_⟩
    rw [zpow_neg, ← one_div, lt_div_iff₀ (two_zpow_pos _)] at h
    exact_mod_cast h
  obtain ⟨-, -, hboth⟩ := splitMantissa_spec hm
  rw [hfloor] at hboth
  exact Prod.ext (BitVec.eq_of_toNat_eq (show (splitMantissa m).1.toNat = 0 by omega))
    (BitVec.eq_of_toNat_eq (show (splitMantissa m).2.toNat = 0 by omega))

/-- R88 and R90: a biased exponent that is not negative and fits goes below the sign, and the mantissa stays. -/
theorem scaleExponent_of_nonneg {sign : SignExp} (hs : sign = 0x0000#16 ∨ sign = 0x8000#16) (m : Exact) {e : ℤ}
    (h : 0 ≤ e + 16382) (he : e ≤ 16384) :
    ∃ sew, scaleExponent sign m e = (sew, m) ∧ (sew.toNat : ℤ) = sign.toNat + (e + 16382) := by
  refine ⟨sign ||| BitVec.ofNat 16 (e + 16382).toNat, if_neg (not_lt.2 h), ?_⟩
  rw [signMerge_toNat hs (by omega)]
  omega

/-- R89: a negative biased exponent is taken into the mantissa, exactly, and 0 stored. -/
theorem scaleExponent_of_neg (sign : SignExp) (m : Exact) {e : ℤ} (h : e + 16382 < 0) :
    scaleExponent sign m e = (sign, m.scale (e + 16382)) := if_pos h

/-- Settles O26: by the sign of the biased exponent, which R89's rescale takes into the mantissa. -/
theorem exponentScalerRule : Obligations.ExponentScalerRule := by
  intro sign m e hs hm he
  refine ⟨fun hb => ?_, fun hb => ?_⟩
  · obtain ⟨sew, hsew, hval⟩ := scaleExponent_of_nonneg hs m hb he
    exact ⟨sew, hsew, hval, by omega⟩
  · have hp := two_zpow_pos (e + 16382)
    have hhalf : (2 : ℚ) ^ (e + 16382) ≤ 1 / 2 := (zpow_two_le (by omega : e + 16382 ≤ -1)).trans (by norm_num)
    have hv : (m.scale (e + 16382)).value = m.value * (2 : ℚ) ^ (e + 16382) := m.scale_value _
    refine ⟨_, scaleExponent_of_neg sign m hb, hv, ?_, fun hpos => ?_, fun hsmall => splitMantissa_of_small ?_⟩
    · rw [hv]
      exact (mul_lt_of_lt_one_left hp hm).trans_le hhalf
    · rw [hv]
      exact mul_pos hpos hp
    · calc (m.scale (e + 16382)).value = m.value * (2 : ℚ) ^ e * (2 : ℚ) ^ (16382 : ℤ) := by
            rw [hv, zpow_add₀ (by norm_num), mul_assoc]
        _ < (2 : ℚ) ^ (-16446 : ℤ) * (2 : ℚ) ^ (16382 : ℤ) := mul_lt_mul_of_pos_right hsmall (two_zpow_pos _)
        _ = (2 : ℚ) ^ (-64 : ℤ) := (zpow_add₀ (by norm_num) _ _).symm

/-! ### The packer -/

theorem extByte_toNat (v : Ext80) (k : Nat) : (extByte v k).toNat = v.toNat / 2 ^ (72 - 8 * k) % 2 ^ 8 := by
  rw [extByte, BitVec.extractLsb'_toNat, Nat.shiftRight_eq_div_pow]

/-- Bytes 0 and 1 are those of the sign-exponent word. -/
theorem extByte_extPack_sew (sew : SignExp) (hi lo : Word32) {k : Nat} (hk : k ≤ 1) :
    extByte (extPack sew hi lo) k = sew.extractLsb' (8 - 8 * k) 8 := by
  have := hi.isLt
  have := lo.isLt
  apply BitVec.eq_of_toNat_eq
  rw [extByte_toNat, extPack_toNat, BitVec.extractLsb'_toNat, Nat.shiftRight_eq_div_pow]
  interval_cases k <;> omega

/-- Bytes 2 to 5 are those of the high half. -/
theorem extByte_extPack_hi (sew : SignExp) (hi lo : Word32) {i : Nat} (h : i ≤ 3) :
    extByte (extPack sew hi lo) (2 + i) = hi.extractLsb' (24 - 8 * i) 8 := by
  have := lo.isLt
  apply BitVec.eq_of_toNat_eq
  rw [extByte_toNat, extPack_toNat, BitVec.extractLsb'_toNat, Nat.shiftRight_eq_div_pow]
  interval_cases i <;> omega

/-- Bytes 6 to 9 are those of the low half. -/
theorem extByte_extPack_lo (sew : SignExp) (hi lo : Word32) {i : Nat} (h : i ≤ 3) :
    extByte (extPack sew hi lo) (6 + i) = lo.extractLsb' (24 - 8 * i) 8 := by
  apply BitVec.eq_of_toNat_eq
  rw [extByte_toNat, extPack_toNat, BitVec.extractLsb'_toNat, Nat.shiftRight_eq_div_pow]
  interval_cases i <;> omega

/-- Settles O31, word by word. -/
theorem packerByteOrder : Obligations.PackerByteOrder := fun sew hi lo =>
  ⟨extByte_extPack_sew sew hi lo (by norm_num), extByte_extPack_sew sew hi lo le_rfl,
    fun _ h => ⟨extByte_extPack_hi sew hi lo h, extByte_extPack_lo sew hi lo h⟩⟩

end Sys2Proof.Machine
end

section
/-! PROOF. What ENC gives for zeros, infinities and NaN, the exactness of every other result, and what the sign of the operand
does to a result (`40_encode.md` R82, R87, R95, R99). -/
namespace Sys2Proof.Machine

theorem extByte_zero (k : Nat) : extByte 0#80 k = 0x00#8 := by simp [extByte]

/-- Settles O20: both zeros encode to the 80-bit value 0. -/
theorem zerosEncodeToTenZeroBytes : Obligations.ZerosEncodeToTenZeroBytes := by
  intro s hx
  have hz : isZero s.req.x = true := by rcases hx with hx | hx <;> rw [hx] <;> decide
  refine ⟨_, exec_enc s, rfl, fun k _ => ?_⟩
  rw [State.respond_rsp, Answer.drive_encOk, encTable_of_isZero hz]
  exact extByte_zero k

theorem isInf_eq_minusInf_iff {u : Bin64} (h : isInf u = true) : u = 0xFFF0000000000000#64 ↔ binSign u = 1#1 := by
  obtain ⟨he, hf⟩ := (isInf_iff u).1 h
  refine ⟨fun e => by rw [e]; decide, fun hs => ?_⟩
  exact bin_ext (hs.trans (by decide)) (he.trans (by decide)) (hf.trans (by decide))

/-- R87: the row of the table for an infinity or a NaN. -/
theorem encTable_of_not_finite {u : Bin64} (h : isFinite u = false) :
    encTable u = if u = 0xFFF0000000000000#64 then 0xFFFF0000000000000000#80 else 0x7FFF0000000000000000#80 := by
  rcases bin_classes u with hz | ⟨hf, -⟩ | hi | hn
  · cases h.symm.trans (isFinite_of_isZero hz)
  · cases h.symm.trans hf
  · simp only [encTable_of_isInf hi, isInf_eq_minusInf_iff hi]
  · have hne : u ≠ 0xFFF0000000000000#64 := fun e => by
      rw [e] at hn
      exact absurd hn (by decide)
    rw [encTable_of_isNaN hn, if_neg hne]

/-- Settles O21: ENC's result is the infinity row of the table. -/
theorem nonFiniteEncodesToInfinity : Obligations.NonFiniteEncodesToInfinity :=
  fun s h => ⟨_, exec_enc s, rfl, encTable_of_not_finite h⟩

/-! ### Exactness -/

/-- R95: the encoding of a finite nonzero operand has its magnitude. -/
theorem extMagnitude_encTable {u : Bin64} (h : isFinite u = true) (hz : isZero u = false) :
    (extMagnitude (encTable u)).value = binMag u := by
  obtain ⟨k, q, hv, hg, hq, hk, -⟩ := val_nonzero h hz
  obtain ⟨-, he, hm⟩ := encTable_fields h hz hv hg hq hk
  have hlog : Nat.log2 k < 53 := (Nat.log2_lt hk).2 hg.lt
  have hexp : ((63 - Nat.log2 k : ℕ) : ℤ) + (q + Nat.log2 k + 16383 - 16446) = q := by omega
  rw [binMag_of_val hv, extMagnitude, Exact.value, he, hm]
  push_cast
  rw [mul_assoc, ← zpow_natCast, ← zpow_add₀ (by norm_num), hexp]

/-- Settles O28: the fields of the row give the operand back. -/
theorem encPreservesValueExactly : Obligations.EncPreservesValueExactly := by
  intro s h hz
  obtain ⟨k, q, hv, hg, hq, hk, -⟩ := val_nonzero h hz
  exact ⟨_, exec_enc s, extMagnitude_encTable h hz, (encTable_fields h hz hv hg hq hk).1⟩

/-! ### Sign fidelity -/

@[simp] theorem isZero_binNeg (u : Bin64) : isZero (binNeg u) = isZero u := by
  rw [Bool.eq_iff_iff, isZero_iff, isZero_iff, binExp_binNeg, binFrac_binNeg]

/-- Two 80-bit values that differ in the sign alone differ by bit 79. -/
theorem eq_xor_signBit {v w : Ext80} (hs : extSign w = ~~~ extSign v) (he : extExp w = extExp v)
    (hm : extMant w = extMant v) : w = v ^^^ (1#80 <<< 79) := by
  have hexp := (extExp v).isLt
  have hmant := (extMant v).isLt
  have hv := ext_toNat_eq_fields v
  have hw := ext_toNat_eq_fields w
  rw [hs, he, hm] at hw
  apply BitVec.eq_of_toNat_eq
  refine Eq.trans ?_ (xor_top_bit v.isLt).symm
  rcases one_bit (extSign v) with h | h
  · rw [h, show (0#1).toNat = 0 from rfl] at hv
    rw [h, show (~~~0#1).toNat = 1 from rfl] at hw
    rw [if_pos (by omega)]
    omega
  · rw [h, show (1#1).toNat = 1 from rfl] at hv
    rw [h, show (~~~1#1).toNat = 0 from rfl] at hw
    rw [if_neg (by omega)]
    omega

/-- R99: negating a finite nonzero operand flips bit 79 alone. -/
theorem encTable_binNeg_of_finite {u : Bin64} (h : isFinite u = true) (hz : isZero u = false) :
    encTable (binNeg u) = encTable u ^^^ (1#80 <<< 79) := by
  obtain ⟨k, q, hv, hg, hq, hk, -⟩ := val_nonzero h hz
  have hv' : val (binNeg u) = .fin (!(binSign u == 1#1)) ⟨k, q⟩ := by rw [val_binNeg, hv, Val.neg]
  obtain ⟨hs, he, hm⟩ := encTable_fields h hz hv hg hq hk
  obtain ⟨hs', he', hm'⟩ :=
    encTable_fields ((isFinite_binNeg u).trans h) ((isZero_binNeg u).trans hz) hv' hg hq hk
  exact eq_xor_signBit (by rw [hs', hs, binSign_binNeg]) (BitVec.eq_of_toNat_eq (by omega))
    (BitVec.eq_of_toNat_eq (hm'.trans hm.symm))

/-- R99: negating an infinity flips bit 79 alone. -/
theorem encTable_binNeg_of_isInf {u : Bin64} (h : isInf u = true) :
    encTable (binNeg u) = encTable u ^^^ (1#80 <<< 79) := by
  rw [encTable_of_isInf h, encTable_of_isInf ((isInf_binNeg u).trans h), binSign_binNeg]
  rcases one_bit (binSign u) with hs | hs <;> rw [hs] <;> rfl

/-- Settles O29: flipping bit 63 is negation, and the table's rows for a number and an infinity carry the sign alone. -/
theorem encSignFidelity : Obligations.EncSignFidelity := by
  intro s
  refine ⟨_, _, exec_enc s, exec_enc _, ?_, ?_⟩
  · rintro (⟨hf, hz⟩ | hi)
    · exact encTable_binNeg_of_finite hf hz
    · exact encTable_binNeg_of_isInf hi
  · rintro (hn | hz)
    · exact (encTable_of_isNaN ((isNaN_binNeg _).trans hn)).trans (encTable_of_isNaN hn).symm
    · exact (encTable_of_isZero ((isZero_binNeg _).trans hz)).trans (encTable_of_isZero hz).symm

end Sys2Proof.Machine
end

section
/-! PROOF. DEC's length guard, its closed form for every LEN, and the fields it reads (`41_decode.md` R106, R107, R123,
R124). -/
namespace Sys2Proof.Machine

/-- DEC with LEN = 10 only responds, with the result of the stages. -/
theorem exec_dec_ten (s : State) : exec (.dec 10#8) s = .next (s.respond (.decOk (decBits s.req.e))) := exec_eq _ s

/-- DEC with another LEN only responds, with INVALID_LENGTH. -/
theorem exec_dec_other {len : Byte} (h : len ≠ 10#8) (s : State) :
    exec (.dec len) s = .next (s.respond .invalidLength) := by
  rw [exec_eq, answerOf_dec_other h]

/-- Settles O34: DEC's response is the table's, or INVALID_LENGTH, and a response changes nothing but the port, the list and
the draws. -/
theorem decCompletesWithClosedForm : Obligations.DecCompletesWithClosedForm := by
  intro s len
  refine ⟨?_, fun h => ⟨_, _, _, exec_dec_other h s⟩⟩
  rintro rfl
  rw [← decBits_eq_decTable]
  exact ⟨_, _, exec_dec_ten s⟩

/-- Settles O33, by the two things DEC can answer. -/
theorem decLengthGuard : Obligations.DecLengthGuard := by
  intro s len
  refine ⟨fun h => ⟨_, _, _, exec_dec_other h s⟩, ?_⟩
  rintro rfl
  exact ⟨_, exec_dec_ten s, rfl, rfl⟩

/-! ### The field extractor -/

theorem extSign_eq_byte (v : Ext80) : extSign v = (extByte v 0).extractLsb' 7 1 := by
  apply BitVec.eq_of_toNat_eq
  rw [extSign_toNat, BitVec.extractLsb'_toNat, Nat.shiftRight_eq_div_pow, extByte_toNat]
  have := v.isLt
  omega

theorem extExp_eq_bytes (v : Ext80) :
    (extExp v).toNat = ((extByte v 0).toNat % 128) <<< 8 ||| (extByte v 1).toNat := by
  rw [← Nat.shiftLeft_add_eq_or_of_lt (extByte v 1).isLt, Nat.shiftLeft_eq, extExp_toNat, extByte_toNat, extByte_toNat]
  omega

theorem extHi_eq_bytes (v : Ext80) : extHi v = extByte v 2 ++ extByte v 3 ++ extByte v 4 ++ extByte v 5 := by
  apply BitVec.eq_of_toNat_eq
  simp only [extHi_toNat, append_toNat, extByte_toNat]
  omega

theorem extLo_eq_bytes (v : Ext80) : extLo v = extByte v 6 ++ extByte v 7 ++ extByte v 8 ++ extByte v 9 := by
  apply BitVec.eq_of_toNat_eq
  simp only [extLo_toNat, append_toNat, extByte_toNat]
  omega

/-- Settles O32, field by field. -/
theorem fieldsFromBytes : Obligations.FieldsFromBytes := fun v =>
  ⟨extSign_eq_byte v, extExp_eq_bytes v, extHi_eq_bytes v, extLo_eq_bytes v⟩

end Sys2Proof.Machine
end

section
/-! PROOF. DEC's classes and the sign of its result (`41_decode.md` R110, R113, R117, R118, R120, R122). -/
namespace Sys2Proof.Machine

/-- Step 6 on a known magnitude (R113). -/
theorem decBits_of_magnitude {v : Ext80} {f : Bin64} (h : decMagnitude (extExp v) (extHi v) (extLo v) = f) :
    decBits v = if extSign v = 1#1 then binNeg f else f := by
  rw [← h]
  rfl

theorem decBits_of_magnitude_zero {v : Ext80} (h : decMagnitude (extExp v) (extHi v) (extLo v) = plusZero) :
    decBits v = if extSign v = 1#1 then 0x8000000000000000#64 else 0x0000000000000000#64 :=
  decBits_of_magnitude h

/-- R110: with EXP15 = 0x7FFF the result is the infinity of the sign. -/
theorem decBits_of_exp_inf {v : Ext80} (h : extExp v = 0x7FFF#15) :
    decBits v = if extSign v = 1#1 then 0xFFF0000000000000#64 else 0x7FF0000000000000#64 :=
  decBits_of_magnitude (f := plusInf) (by rw [h, decMagnitude_inf])

/-- R118: away from EXP15 = 0x7FFF a zero mantissa makes both terms +0.0, whatever the exponent. -/
theorem decMagnitude_of_mant_zero {v : Ext80} (hne : extExp v ≠ 0x7FFF#15) (h : extMant v = 0#64) :
    decMagnitude (extExp v) (extHi v) (extLo v) = plusZero := by
  have hm : (extHi v).toNat * 2 ^ 32 + (extLo v).toNat = 0 := by rw [← extMant_eq, h]; rfl
  have hhi : (extHi v).toNat = 0 := by omega
  have hlo : (extLo v).toNat = 0 := by omega
  rw [decMagnitude_eq hne, reconstruct_eq, rne64_of_sig_zero hhi, rne64_of_sig_zero hlo]
  decide

/-- Settles O41: the infinity class by its exponent, and the zeros by their mantissa. -/
theorem decZeroAndInfinityClasses : Obligations.DecZeroAndInfinityClasses := fun s =>
  ⟨_, exec_dec_ten s, rfl, decBits_of_exp_inf,
    fun hne hm => decBits_of_magnitude_zero (decMagnitude_of_mant_zero hne hm)⟩

/-- Settles O40: the magnitude is no NaN and of sign 0, and the sign application leaves the class. -/
theorem decNeverReturnsNaN : Obligations.DecNeverReturnsNaN := fun s =>
  ⟨_, exec_dec_ten s, isNaN_decBits s.req.e, decMagnitude_sign_not_nan _ _ _⟩

/-! ### Sign fidelity -/

/-- Flipping bit 79 flips the sign field and leaves the others. -/
theorem ext_fields_xor_signBit (v : Ext80) :
    extSign (v ^^^ (1#80 <<< 79)) = ~~~ extSign v ∧ extExp (v ^^^ (1#80 <<< 79)) = extExp v ∧
      extHi (v ^^^ (1#80 <<< 79)) = extHi v ∧ extLo (v ^^^ (1#80 <<< 79)) = extLo v := by
  have hv := v.isLt
  have hx : (v ^^^ (1#80 <<< 79)).toNat = if v.toNat < 2 ^ 79 then v.toNat + 2 ^ 79 else v.toNat - 2 ^ 79 :=
    xor_top_bit hv
  refine ⟨BitVec.eq_of_toNat_eq ?_, BitVec.eq_of_toNat_eq ?_, BitVec.eq_of_toNat_eq ?_, BitVec.eq_of_toNat_eq ?_⟩
  · rw [BitVec.toNat_not, extSign_toNat, extSign_toNat, hx]
    split <;> omega
  · rw [extExp_toNat, extExp_toNat, hx]
    split <;> omega
  · rw [extHi_toNat, extHi_toNat, hx]
    split <;> omega
  · rw [extLo_toNat, extLo_toNat, hx]
    split <;> omega

/-- R120: the sequence with the other sign decodes to the negated result. -/
theorem decBits_xor_signBit (v : Ext80) : decBits (v ^^^ (1#80 <<< 79)) = binNeg (decBits v) := by
  obtain ⟨hs, he, hhi, hlo⟩ := ext_fields_xor_signBit v
  rw [decBits_of_magnitude (v := v ^^^ _) (by rw [he, hhi, hlo]), decBits_of_magnitude (v := v) rfl, hs]
  rcases one_bit (extSign v) with h | h
  · simp [h]
  · simp [h]

/-- Settles O42: flipping bit 63 is negation. -/
theorem decSignFidelity : Obligations.DecSignFidelity := fun s =>
  ⟨_, _, exec_dec_ten s, exec_dec_ten _, decBits_xor_signBit s.req.e⟩

end Sys2Proof.Machine
end

section
/-! PROOF. DEC's ranges: one rounding from EXP15 = 0x3C0C on, two roundings and a sum below, a zero at the bottom
(`41_decode.md` R108, R114 to R116). -/
namespace Sys2Proof.Machine

/-- Settles O36, by what the conversion gives. -/
theorem unsignedConversionIsExact : Obligations.UnsignedConversionIsExact := fun w =>
  have ⟨hf, hs, hm⟩ := u2f_spec w
  ⟨hm, hf, hs⟩

/-! ### The upper range -/

/-- A scaled word whose weight binary64 holds is +inf or exact (R114). -/
theorem ldexp_u2f_exact_or_inf (w : Word32) {k : ℤ} (hk : -1074 ≤ k) :
    ldexp (u2f w) k = plusInf ∨ binMag (ldexp (u2f w) k) = w.toNat * (2 : ℚ) ^ k := by
  rw [ldexp_u2f]
  exact (rne64_word w hk).imp And.right And.right

/-- The first two examples of R114 are ties, to the even neighbour below and above; the third is just over a tie. -/
theorem decBits_tie_examples :
    decBits 0x3FFF8000000000000400#80 = 0x3FF0000000000000#64 ∧
    decBits 0x3FFF8000000000000C00#80 = 0x3FF0000000000002#64 ∧
    decBits 0x3FFF8000000000000401#80 = 0x3FF0000000000001#64 := by decide +kernel

theorem extExp_ne_inf {v : Ext80} (h : (extExp v).toNat ≤ 0x7FFE) : extExp v ≠ 0x7FFF#15 := fun e => by
  rw [e] at h
  exact absurd h (by decide)

/-- Settles O37: in this range the weight of each term is at least that of the least subnormal. -/
theorem singleRoundingInUpperRange : Obligations.SingleRoundingInUpperRange :=
  ⟨fun v hlo hhi => ⟨ldexp_u2f_exact_or_inf _ (by omega), ldexp_u2f_exact_or_inf _ (by omega),
    decMagnitude_of_upper hlo (extExp_ne_inf hhi)⟩, decBits_tie_examples⟩

theorem isInf_decBits (v : Ext80) : isInf (decBits v) = isInf (decMagnitude (extExp v) (extHi v) (extLo v)) := by
  obtain ⟨-, hexp, hfrac⟩ := decBits_spec v
  rw [isInf, isInf, hexp, hfrac]

/-- The examples of R115: the largest finite value, the threshold itself, and 2^1024. -/
theorem decBits_overflow_examples :
    decBits 0x43FEFFFFFFFFFFFFF800#80 = 0x7FEFFFFFFFFFFFFF#64 ∧
    decBits 0x43FEFFFFFFFFFFFFFC00#80 = 0x7FF0000000000000#64 ∧
    decBits 0x43FF8000000000000000#80 = 0x7FF0000000000000#64 := by decide +kernel

/-- Settles O38: the one rounding of this range overflows at RNE64's threshold, and the sign leaves the class. -/
theorem decOverflowThreshold : Obligations.DecOverflowThreshold := by
  refine ⟨fun s hlo hhi => ⟨_, exec_dec_ten s, ?_, (decBits_spec s.req.e).1⟩, decBits_overflow_examples⟩
  rw [State.respond_rsp, Answer.drive_decOk, isInf_decBits, decMagnitude_of_upper hlo (extExp_ne_inf hhi), isInf_rne64_iff]

/-! ### The low range -/

/-- R116 (a): the magnitude is below half of the least subnormal. -/
theorem extMagnitude_lt_of_lower {v : Ext80} (h : (extExp v).toNat ≤ 0x3BCB) :
    (extMagnitude v).value < (2 : ℚ) ^ (-1075 : ℤ) := by
  have hm : ((extMant v).toNat : ℚ) < (2 : ℚ) ^ (64 : ℤ) := by exact_mod_cast (extMant v).isLt
  calc ((extMant v).toNat : ℚ) * (2 : ℚ) ^ ((extExp v).toNat - 16446 : ℤ)
      < (2 : ℚ) ^ (64 : ℤ) * (2 : ℚ) ^ ((extExp v).toNat - 16446 : ℤ) :=
        mul_lt_mul_of_pos_right hm (two_zpow_pos _)
    _ = (2 : ℚ) ^ (64 + ((extExp v).toNat - 16446) : ℤ) := (zpow_add₀ (by norm_num) _ _).symm
    _ ≤ (2 : ℚ) ^ (-1075 : ℤ) := zpow_two_le (by omega)

theorem ldexp_u2f_of_small (w : Word32) {k : ℤ} (hk : k ≤ -1107) : ldexp (u2f w) k = plusZero := by
  rw [ldexp_u2f, rne64_word_of_small w hk]

/-- A word times a power of two below the largest ones does not overflow. -/
theorem isInf_rne64_word (w : Word32) {k : ℤ} (hk : k ≤ 991) : isInf (rne64 ⟨w.toNat, k⟩) = false := by
  rw [Bool.eq_false_iff, Ne, isInf_rne64_iff, not_le]
  have hw : (w.toNat : ℚ) ≤ (2 : ℚ) ^ (32 : ℤ) := by exact_mod_cast w.isLt.le
  apply lt_overflowThreshold (p := 32 + k) (by omega)
  rw [zpow_add₀ (by norm_num)]
  exact mul_le_mul_of_nonneg_right hw (two_zpow_pos k).le

/-- R116 (b): below the upper range the two rounded terms are finite, and their exact sum is rounded. -/
theorem decMagnitude_eq_sum_of_rounded_terms {v : Ext80} (h : (extExp v).toNat ≤ 0x3C0B) :
    decMagnitude (extExp v) (extHi v) (extLo v) =
      rne64 ((val (rne64 ⟨(extHi v).toNat, ((extExp v).toNat : ℤ) - 16414⟩)).mag.add
        (val (rne64 ⟨(extLo v).toNat, ((extExp v).toNat : ℤ) - 16446⟩)).mag) := by
  rw [decMagnitude_eq (extExp_ne_inf (by omega)), reconstruct_eq,
    show ((extExp v).toNat : ℤ) - 16383 - 31 = (extExp v).toNat - 16414 by ring,
    show ((extExp v).toNat : ℤ) - 16383 - 63 = (extExp v).toNat - 16446 by ring]
  exact binAdd_eq (isInf_rne64_word _ (by omega)) (isInf_rne64_word _ (by omega)) (Exact.add_value _ _)

/-- The examples of R116 (b), where one rounding of `r` would differ, (c) and (d). -/
theorem decBits_low_examples :
    decBits 0x3BCC8000000000000001#80 = 0#64 ∧
    rne64 (extMagnitude 0x3BCC8000000000000001#80) = 1#64 ∧
    decBits 0x3BCCC000000000000000#80 = 1#64 ∧
    decBits 0x3BCD8000000000000000#80 = 1#64 := by decide +kernel

/-- Settles O39: the two parts of the range, and the examples. -/
theorem decLowRange : Obligations.DecLowRange :=
  ⟨fun _ h => ⟨extMagnitude_lt_of_lower h, ldexp_u2f_of_small _ (by omega), ldexp_u2f_of_small _ (by omega),
    decBits_of_magnitude_zero (decMagnitude_of_lower h)⟩,
    fun _ _ h => decMagnitude_eq_sum_of_rounded_terms h, decBits_low_examples⟩

end Sys2Proof.Machine
end

section
/-! PROOF. DEC reads back what ENC writes (`41_decode.md` R119, R121). The encoding of a finite operand `k * 2^q` has
`k` moved up in its mantissa; each half of that mantissa is a multiple of the same power of two, so that each of DEC's terms
is a multiple of `2^q`, which binary64 holds, and nothing is rounded. -/
namespace Sys2Proof.Machine

/-- The low `n` bits of a multiple of `2^d` are a multiple of `2^d`. -/
theorem two_pow_dvd_mod {m d : Nat} (n : Nat) (h : 2 ^ d ∣ m) : 2 ^ d ∣ m % 2 ^ n := by
  rcases le_total d n with hd | hd
  · exact (Nat.dvd_mod_iff (pow_dvd_pow 2 hd)).2 h
  · rw [Nat.mod_eq_zero_of_dvd ((pow_dvd_pow 2 hd).trans h)]
    exact dvd_zero _

/-- Where the mantissa is `k * 2^d`, its halves are the parts of a sum `k`, each moved up by `d`. -/
theorem extMant_halves {v : Ext80} {k d : Nat} (h : (extMant v).toNat = k * 2 ^ d) :
    ∃ a b, a + b = k ∧ (extHi v).toNat * 2 ^ 32 = a * 2 ^ d ∧ (extLo v).toNat = b * 2 ^ d := by
  have hsum := (extMant_eq v).symm.trans h
  have hlo : (extLo v).toNat = (extMant v).toNat % 2 ^ 32 := by
    rw [extLo_toNat, extMant_toNat]
    omega
  obtain ⟨b, hb⟩ : 2 ^ d ∣ (extLo v).toNat := by
    rw [hlo]
    exact two_pow_dvd_mod 32 (h ▸ dvd_mul_left _ _)
  obtain ⟨a, ha⟩ : 2 ^ d ∣ (extHi v).toNat * 2 ^ 32 :=
    (Nat.dvd_add_left ⟨b, hb⟩).1 (hsum ▸ dvd_mul_left _ _)
  rw [mul_comm (2 ^ d)] at ha hb
  refine ⟨a, b, Nat.eq_of_mul_eq_mul_right (Nat.two_pow_pos d) ?_, ha, hb⟩
  rw [add_mul, ← ha, ← hb, hsum]

/-- A term `w * 2^e` that is `j * 2^q` for a grid number `k * 2^q` with `j` at most `k` is not rounded. -/
theorem rne64_part_of_grid {w j k : Nat} {e q : ℤ} (hg : OnGrid k q) (hq : q ≤ 971) (hj : j ≤ k)
    (h : (w : ℚ) * (2 : ℚ) ^ e = j * (2 : ℚ) ^ q) :
    isFinite (rne64 ⟨w, e⟩) = true ∧ binMag (rne64 ⟨w, e⟩) = w * (2 : ℚ) ^ e := by
  have hj53 : j < 2 ^ 53 := hj.trans_lt hg.lt
  refine (rne64_of_grid (r := ⟨w, e⟩) h hj53 hg.le ?_).imp_right And.right
  calc (w : ℚ) * (2 : ℚ) ^ e = j * (2 : ℚ) ^ q := h
    _ < (2 : ℚ) ^ (53 : ℤ) * (2 : ℚ) ^ q := mul_lt_mul_of_pos_right (by exact_mod_cast hj53) (two_zpow_pos q)
    _ = (2 : ℚ) ^ (53 + q) := (zpow_add₀ (by norm_num) _ _).symm
    _ ≤ (2 : ℚ) ^ (1024 : ℤ) := zpow_two_le (by omega)

/-- A sequence whose mantissa is `k` moved up by `d` and whose magnitude is the grid number `k * 2^q` has that magnitude
after DEC: both terms and their sum are exact. -/
theorem decMagnitude_of_grid {v : Ext80} {k d : Nat} {q : ℤ} (hg : OnGrid k q) (hq : q ≤ 971)
    (hmant : (extMant v).toNat = k * 2 ^ d) (hexp : ((extExp v).toNat : ℤ) = q + 16446 - d)
    (hne : extExp v ≠ 0x7FFF#15) :
    isFinite (decMagnitude (extExp v) (extHi v) (extLo v)) = true ∧
      binMag (decMagnitude (extExp v) (extHi v) (extLo v)) = k * (2 : ℚ) ^ q := by
  obtain ⟨a, b, hab, ha, hb⟩ := extMant_halves hmant
  have hup : ∀ j : Nat, ((j * 2 ^ d : ℕ) : ℚ) * (2 : ℚ) ^ ((extExp v).toNat - 16446 : ℤ) = j * (2 : ℚ) ^ q := by
    intro j
    rw [Nat.cast_mul, Nat.cast_pow, Nat.cast_ofNat, mul_assoc, ← zpow_natCast, ← zpow_add₀ (by norm_num)]
    congr 2
    omega
  have hhi : ((extHi v).toNat : ℚ) * (2 : ℚ) ^ ((extExp v).toNat - 16383 - 31 : ℤ) = a * (2 : ℚ) ^ q := by
    rw [← hup a, ← ha, Nat.cast_mul, mul_assoc, show ((2 ^ 32 : ℕ) : ℚ) = (2 : ℚ) ^ (32 : ℤ) by norm_num,
      ← zpow_add₀ (by norm_num)]
    congr 2
    ring
  have hlo : ((extLo v).toNat : ℚ) * (2 : ℚ) ^ ((extExp v).toNat - 16383 - 63 : ℤ) = b * (2 : ℚ) ^ q := by
    rw [← hup b, ← hb]
    congr 2
    ring
  have hr : (extMagnitude v).value = k * (2 : ℚ) ^ q := by
    rw [extMagnitude_value, hhi, hlo, ← add_mul, ← hab, Nat.cast_add]
  obtain ⟨hfhi, hmhi⟩ := rne64_part_of_grid hg hq (by omega) hhi
  obtain ⟨hflo, hmlo⟩ := rne64_part_of_grid hg hq (by omega) hlo
  obtain ⟨hf, hm⟩ := rne64_part_of_grid hg hq le_rfl hr
  rw [decMagnitude_eq hne, reconstruct_eq, binAdd_eq (r := extMagnitude v) (isInf_of_isFinite hfhi) (isInf_of_isFinite hflo)
    (by rw [hmhi, hmlo, extMagnitude_value])]
  exact ⟨hf, hm.trans hr⟩

/-- The result of DEC has the magnitude and the finiteness it has before the sign. -/
theorem decBits_magnitude (v : Ext80) :
    isFinite (decBits v) = isFinite (decMagnitude (extExp v) (extHi v) (extLo v)) ∧
      binMag (decBits v) = binMag (decMagnitude (extExp v) (extHi v) (extLo v)) := by
  rw [decBits_of_magnitude rfl]
  split
  · exact ⟨isFinite_binNeg _, binMag_binNeg _⟩
  · exact ⟨rfl, rfl⟩

/-- R119: a finite nonzero operand is read back bit for bit. -/
theorem decBits_encTable_of_finite {u : Bin64} (h : isFinite u = true) (hz : isZero u = false) :
    decBits (encTable u) = u := by
  obtain ⟨k, q, hv, hg, hq, hk, -⟩ := val_nonzero h hz
  obtain ⟨hs, he, hm⟩ := encTable_fields h hz hv hg hq hk
  have hlog : Nat.log2 k < 53 := (Nat.log2_lt hk).2 hg.lt
  obtain ⟨hf, hmag⟩ := decMagnitude_of_grid hg hq hm (by omega) (extExp_ne_inf (by omega))
  obtain ⟨hf', hmag'⟩ := decBits_magnitude (encTable u)
  exact binMag_injective (hf'.trans hf) h ((decBits_spec _).1.trans hs) (by rw [hmag', hmag, binMag_of_val hv])

/-- R121: an infinity is read back as it is. -/
theorem decBits_encTable_of_isInf {u : Bin64} (h : isInf u = true) : decBits (encTable u) = u := by
  obtain ⟨he, hf⟩ := (isInf_iff u).1 h
  rw [encTable_of_isInf h, ← binOf_fields u, he, hf, binSign_binOf]
  rcases one_bit (binSign u) with hs | hs
  · rw [hs]
    exact decBits_of_exp_inf (by decide)
  · rw [hs]
    exact decBits_of_exp_inf (by decide)

/-- R119 and R121: DEC of ENC's table, by the class of the operand. -/
theorem decBits_encTable (u : Bin64) :
    decBits (encTable u) =
      if isZero u = true then 0x0000000000000000#64 else if isNaN u = true then 0x7FF0000000000000#64 else u := by
  rcases bin_classes u with hz | ⟨hf, hz⟩ | hi | hn
  · rw [if_pos hz, encTable_of_isZero hz]
    exact decBits_of_magnitude_zero (decMagnitude_of_mant_zero (by decide) (by decide))
  · simp [hz, isNaN_of_isFinite hf, decBits_encTable_of_finite hf hz]
  · simp [isZero_of_not_finite (isFinite_of_isInf hi), isNaN_of_isInf hi, decBits_encTable_of_isInf hi]
  · rw [isZero_of_not_finite (isFinite_of_isNaN hn), if_neg Bool.false_ne_true, if_pos hn, encTable_of_isNaN hn]
    exact decBits_of_exp_inf (by decide)

/-- Settles O43: ENC puts its table's row on the port, and DEC of that row is the operand, class by class. -/
theorem roundTripThroughTheBlock : Obligations.RoundTripThroughTheBlock := fun s =>
  ⟨_, _, exec_enc s, exec_dec_ten _, rfl, decBits_encTable s.req.x⟩

end Sys2Proof.Machine
end

section
/-! PROOF. The block from reset on and over a list of requests (`70_reset_and_hazards.md` R150, R151, R157; `10_state.md`
R39). A step answers by the meaning of its request, so that neither reset nor the requests before it matter. -/
namespace Sys2Proof.Machine

/-- Settles O16: with no response given, both clauses of the invariant speak of none. -/
theorem resetIsGood : Obligations.ResetIsGood := by
  have hinv : State.reset.Inv := by simp [State.Inv]
  exact ⟨hinv, State.reset_results, State.reset_pending, step_of_none State.reset_pending⟩

/-- Settles O14: the reset state and the other state both answer `r` with its meaning. -/
theorem firstRequestAfterResetLikeAnyOther : Obligations.FirstRequestAfterResetLikeAnyOther := by
  intro s r rest hp hadm
  obtain ⟨a, ha⟩ := (blockMeaning_defined_iff r).2 hadm
  let s₀ : State := { State.reset with pending := [r] }
  exact ⟨_, _, a, step_of_meaning (s := s₀) rfl ha, step_of_meaning hp ha, rfl, rfl, a.shownBy_drive s₀.draws,
    a.shownBy_drive s.draws⟩

theorem run_succ_of_step {M : Host.Core} {s s' : M.State} (h : M.step s = .next s') (k : Nat) :
    M.run (k + 1) s = M.run k s' := by
  rw [Host.Core.run, h]

/-- Settles O15, by induction on the pending requests: the first step answers the first of them by its meaning and leaves
the others pending. -/
theorem runAnswersEveryRequestInOrder : Obligations.RunAnswersEveryRequestInOrder := by
  intro s hadm
  induction hp : s.pending generalizing s with
  | nil => exact ⟨s, rfl, hp, (List.append_nil _).symm⟩
  | cons r rest ih =>
    rw [hp] at hadm
    obtain ⟨hr, hrest⟩ := List.forall_mem_cons.1 hadm
    obtain ⟨a, ha⟩ := (blockMeaning_defined_iff r).2 hr
    let s' := (s.present r rest).respond a
    obtain ⟨t, hrun, hnone, hresults⟩ := ih s' hrest rfl
    refine ⟨t, (run_succ_of_step (step_of_meaning hp ha) _).trans hrun, hnone, ?_⟩
    calc t.results.map some
        = (s.results ++ [a]).map some ++ rest.map blockMeaning := hresults
      _ = s.results.map some ++ (r :: rest).map blockMeaning := by simp [ha]

end Sys2Proof.Machine
end
